-- ==== Sys2Proof/Word.lean ====
section
/-! DEFINITION. The engine's one data width (00_scope.md R5, `XLEN` = 8; R7, R8). -/

namespace Sys2Proof

/-- A register, a memory cell, an operand byte or an opcode: an unsigned 8-bit value (R5, R8). -/
abbrev Byte := BitVec 8

end Sys2Proof
end

