-- ==== Sys2Proof/Syntax.lean ====
section
/-! DEFINITION. The twelve instructions (30_encoding.md R95), one constructor each. An operand is its whole byte as
fetched: R93 reads a register index as the whole byte and faults on 8..255, so the byte is kept. -/

namespace Sys2Proof

/-- An instruction with its operand bytes (30_encoding.md R92, R95). `ra` and `rb` are register-index bytes,
`imm` is LDI's immediate byte. -/
inductive Instr where
  /-- halt (40_cycle.md R130) -/
  | hlt
  /-- return from subroutine (44_control_transfer.md R212) -/
  | ret
  /-- push register (43_stack.md R191) -/
  | push (ra : Byte)
  /-- pop into register (43_stack.md R193) -/
  | pop (ra : Byte)
  /-- print register (41_data_io.md R153) -/
  | prn (ra : Byte)
  /-- call subroutine (44_control_transfer.md R211) -/
  | call (ra : Byte)
  /-- jump (44_control_transfer.md R213) -/
  | jmp (ra : Byte)
  /-- jump if equal (44_control_transfer.md R214) -/
  | jeq (ra : Byte)
  /-- jump if not equal (44_control_transfer.md R215) -/
  | jne (ra : Byte)
  /-- load immediate (41_data_io.md R151) -/
  | ldi (ra imm : Byte)
  /-- multiply (42_alu.md R172) -/
  | mul (ra rb : Byte)
  /-- compare (42_alu.md R174) -/
  | cmp (ra rb : Byte)
  deriving DecidableEq, Repr

end Sys2Proof
end

