-- ==== Sys2Proof/WellFormed.lean ====
section
/-! DEFINITION. Which instructions are well formed: every register-index byte names a register (30_encoding.md R93). -/

namespace Sys2Proof

/-- A register-index byte names a register exactly when it is in 0..7 (30_encoding.md R93). -/
def registerByteOk (b : Byte) : Bool := decide (b.toNat < 8)

/-- The register check of 40_cycle.md R124 as a property of the instruction: ra of `F1R`, `F2RI` and `F2RR`, and rb
of `F2RR`. LDI's byte 2 is a value and is never checked (41_data_io.md R151). -/
def Instr.wf : Instr → Bool
  | .hlt => true
  | .ret => true
  | .push ra => registerByteOk ra
  | .pop ra => registerByteOk ra
  | .prn ra => registerByteOk ra
  | .call ra => registerByteOk ra
  | .jmp ra => registerByteOk ra
  | .jeq ra => registerByteOk ra
  | .jne ra => registerByteOk ra
  | .ldi ra _ => registerByteOk ra
  | .mul ra rb => registerByteOk ra && registerByteOk rb
  | .cmp ra rb => registerByteOk ra && registerByteOk rb

end Sys2Proof
end

