-- ==== Sys2Proof/Decode.lean ====
section
/-! DEFINITION. The opcode map, the decoder (total, rejecting by name) and the encoder (30_encoding.md). -/

namespace Sys2Proof

/-! ## The opcode map (30_encoding.md R95) -/

def opHLT : Byte := 0b00000001
def opRET : Byte := 0b00010001
def opPUSH : Byte := 0b01000101
def opPOP : Byte := 0b01000110
def opPRN : Byte := 0b01000111
def opCALL : Byte := 0b01010000
def opJMP : Byte := 0b01010100
def opJEQ : Byte := 0b01010101
def opJNE : Byte := 0b01010110
def opLDI : Byte := 0b10000010
def opMUL : Byte := 0b10100010
def opCMP : Byte := 0b10100111

/-- The four formats (30_encoding.md R92), each with the instruction its operand bytes make. -/
inductive Format where
  | f0 (i : Instr)
  | f1r (mk : Byte → Instr)
  | f2ri (mk : Byte → Byte → Instr)
  | f2rr (mk : Byte → Byte → Instr)

/-- One row of the table: an opcode and its format. -/
structure OpRow where
  opcode : Byte
  format : Format

/-- The data-driven dispatch table (30_encoding.md R95, R96). -/
def opTable : List OpRow :=
  [ ⟨opHLT, .f0 .hlt⟩,
    ⟨opRET, .f0 .ret⟩,
    ⟨opPUSH, .f1r .push⟩,
    ⟨opPOP, .f1r .pop⟩,
    ⟨opPRN, .f1r .prn⟩,
    ⟨opCALL, .f1r .call⟩,
    ⟨opJMP, .f1r .jmp⟩,
    ⟨opJEQ, .f1r .jeq⟩,
    ⟨opJNE, .f1r .jne⟩,
    ⟨opLDI, .f2ri .ldi⟩,
    ⟨opMUL, .f2rr .mul⟩,
    ⟨opCMP, .f2rr .cmp⟩ ]

/-- The row of an opcode: all 8 bits are compared, mask 0xFF (30_encoding.md R96; 40_cycle.md R122). -/
def lookupOpcode (op : Byte) : Option OpRow := opTable.find? (fun row => row.opcode == op)

/-! ## The decoder -/

/-- Why bytes are not an instruction. -/
inductive Reject where
  /-- there is no opcode byte (the fetch of 40_cycle.md R121 would be beyond memory) -/
  | noOpcode
  /-- the opcode is in no row of the table (30_encoding.md R98) -/
  | unassigned (op : Byte)
  /-- the instruction's byte 1 is not there (40_cycle.md R123) -/
  | noOperandA (op : Byte)
  /-- the instruction's byte 2 is not there (40_cycle.md R123) -/
  | noOperandB (op : Byte)
  deriving DecidableEq, Repr

/-- What decoding bytes gives: an instruction and the bytes after it, or a reason why not. -/
inductive Decoded where
  | instr (i : Instr) (rest : List Byte)
  | reject (r : Reject)
  deriving DecidableEq, Repr

/-- Takes one operand byte from the bytes after the opcode. -/
def takeOne (op : Byte) (mk : Byte → Instr) : List Byte → Decoded
  | [] => .reject (.noOperandA op)
  | a :: rest => .instr (mk a) rest

/-- Takes two operand bytes from the bytes after the opcode, operand_a first (40_cycle.md R123). -/
def takeTwo (op : Byte) (mk : Byte → Byte → Instr) : List Byte → Decoded
  | [] => .reject (.noOperandA op)
  | [_] => .reject (.noOperandB op)
  | a :: b :: rest => .instr (mk a b) rest

/-- Takes the operand bytes a format has; a byte beyond the instruction's length is left alone
(30_encoding.md R92, R100). -/
def takeOperands (op : Byte) : Format → List Byte → Decoded
  | .f0 i, rest => .instr i rest
  | .f1r mk, rest => takeOne op mk rest
  | .f2ri mk, rest => takeTwo op mk rest
  | .f2rr mk, rest => takeTwo op mk rest

/-- Decodes the instruction at the front of a list of bytes (30_encoding.md R90, R101; 40_cycle.md R122, R123).
Register-index bytes are not checked here: 40_cycle.md R124 checks them after the operand fetch, as a fault of the
decoded instruction (log entry 5). -/
def decode : List Byte → Decoded
  | [] => .reject .noOpcode
  | op :: rest =>
    match lookupOpcode op with
    | none => .reject (.unassigned op)
    | some row => takeOperands op row.format rest

/-! ## The encoder -/

/-- The bytes of an instruction: the opcode, then the operand bytes in order (30_encoding.md R92, R95, R103). -/
def encode : Instr → List Byte
  | .hlt => [opHLT]
  | .ret => [opRET]
  | .push ra => [opPUSH, ra]
  | .pop ra => [opPOP, ra]
  | .prn ra => [opPRN, ra]
  | .call ra => [opCALL, ra]
  | .jmp ra => [opJMP, ra]
  | .jeq ra => [opJEQ, ra]
  | .jne ra => [opJNE, ra]
  | .ldi ra imm => [opLDI, ra, imm]
  | .mul ra rb => [opMUL, ra, rb]
  | .cmp ra rb => [opCMP, ra, rb]

/-- The opcode byte of an instruction (30_encoding.md R95). -/
def Instr.opcode : Instr → Byte
  | .hlt => opHLT
  | .ret => opRET
  | .push _ => opPUSH
  | .pop _ => opPOP
  | .prn _ => opPRN
  | .call _ => opCALL
  | .jmp _ => opJMP
  | .jeq _ => opJEQ
  | .jne _ => opJNE
  | .ldi _ _ => opLDI
  | .mul _ _ => opMUL
  | .cmp _ _ => opCMP

/-- The length in bytes of an instruction (30_encoding.md R90). -/
def Instr.length (i : Instr) : Nat := (encode i).length

/-! ## Words as spec/opcode_table.json numbers them -/

/-- The three bytes of an instruction word whose low `nbits` bits are `w`, first byte first: bit 0 of the word is
bit 0 of the opcode byte, and every bit above `nbits` is 0 (30_encoding.md R90, R92). -/
def wordBytes (nbits w : Nat) : List Byte :=
  let v := w % 2 ^ nbits
  [BitVec.ofNat 8 v, BitVec.ofNat 8 (v / 2 ^ 8), BitVec.ofNat 8 (v / 2 ^ 16)]

/-- The instruction the decoder reads from a word of `nbits` bits. -/
def decodeTableWord (nbits w : Nat) : Option Instr :=
  match decode (wordBytes nbits w) with
  | .instr i _ => some i
  | .reject _ => none

end Sys2Proof
end

