-- ==== Sys2Proof/Config.lean ====
section
/-! DEFINITION. The construction parameters of the engine (00_scope.md R5). They are fixed while the engine runs.
The spec leaves no value of any instruction undefined, so there is no free value here. -/

namespace Sys2Proof

/-- What an opcode outside the table does (00_scope.md R5; 40_cycle.md R125, R126; D6: left OPEN). -/
inductive UnknownOpcodePolicy where
  | lenient
  | strict
  deriving DecidableEq, Repr

/-- The parameters of a construction (00_scope.md R5; 60_exceptions.md R258, port construct). -/
structure Config where
  /-- `MEM_SIZE`, the number of memory cells -/
  memSize : Nat
  /-- `SP_INIT`, what reset puts into R7 -/
  spInit : Byte
  /-- `UNKNOWN_OPCODE_POLICY` -/
  policy : UnknownOpcodePolicy
  /-- `TRACE_EN` -/
  traceEn : Bool
  deriving DecidableEq, Repr

/-- The legal values of `MEM_SIZE` (00_scope.md R5, D16). Every `SP_INIT`, policy and `TRACE_EN` is legal. -/
abbrev Config.Legal (c : Config) : Prop := 12 ≤ c.memSize ∧ c.memSize ≤ 256

/-- The default `SP_INIT`: `MEM_SIZE - 0x0C` (00_scope.md R5, C8). -/
def Config.defaultSpInit (memSize : Nat) : Byte := BitVec.ofNat 8 (memSize - 0x0C)

/-- `PC_W`: the least width that holds every value 0..`MEM_SIZE` (00_scope.md R5; 10_state.md R37). -/
def Config.pcWidth (c : Config) : Nat := Nat.log2 c.memSize + 1

/-- The parameters of this hardware (00_scope.md R5): `MEM_SIZE` = 256, `SP_INIT` = 0xF4.
DESIGN CHOICE, unsafe (log entry 1): R5 leaves the policy and `TRACE_EN` OPEN; here they have the reference
behaviour (`lenient`) and the stated default (false). -/
def Config.reference : Config :=
  { memSize := 256, spInit := Config.defaultSpInit 256, policy := .lenient, traceEn := false }

end Sys2Proof
end

