-- ==== Sys2Proof/Machine/State.lean ====
section
/-! DEFINITION. The machine's state as plain data (10_state.md), the reasons a step can stop, and reset. -/

namespace Sys2Proof.Machine

/-- Memory: the cells that do not hold 0, by rising address. An unlisted address reads as 0, the value of every cell
after reset (20_memory.md R60). `Memory.wf` in Ops.lean is the canonical form. -/
abbrev Memory := List Host.Cell

/-- The fault record, "typed error identifying the PC and opcode at fault" (10_state.md R47). -/
structure FaultRecord where
  /-- `faulted` -/
  faulted : Bool
  /-- `fault_cause`, a code of 60_exceptions.md R241 -/
  cause : BitVec 3
  /-- `fault_pc` -/
  pc : Nat
  /-- `fault_opcode_valid` -/
  opcodeValid : Bool
  /-- `fault_opcode` -/
  opcode : Byte
  /-- `fault_info` -/
  info : Nat
  deriving DecidableEq, Repr

/-- The fault record after reset: every field 0 (10_state.md R47, R51). -/
def FaultRecord.clear : FaultRecord :=
  { faulted := false, cause := 0, pc := 0, opcodeValid := false, opcode := 0, info := 0 }

/-- One record of the diagnostic port, `Diag(pc, op)` (60_exceptions.md R243). -/
structure Diag where
  pc : Nat
  op : Byte
  deriving DecidableEq, Repr

/-- One record of the trace port (60_exceptions.md R255): pc, the bytes at pc, pc+1 and pc+2 (`none` where the
address is beyond memory: "absent"), and the eight registers. -/
structure Trace where
  pc : Nat
  byte0 : Option Byte
  byte1 : Option Byte
  byte2 : Option Byte
  regs : Vector Byte 8
  deriving DecidableEq, Repr

/-- The whole machine (10_state.md R51), its construction parameters (00_scope.md R5, log entry 1) and the records
its three output ports have carried so far, oldest first (41_data_io.md R154; 60_exceptions.md R258; log entry 3). -/
structure State where
  /-- the parameters of the construction; no step changes them -/
  cfg : Config
  /-- `M[0..MEM_SIZE-1]` -/
  mem : Memory
  /-- R0..R7; R7 is the stack pointer -/
  regs : Vector Byte 8
  /-- the program counter: an exact integer that never wraps (10_state.md R37, R39; log entry 2) -/
  pc : Nat
  /-- FL: bit 0 E, bit 1 G, bit 2 L (10_state.md R42) -/
  fl : Byte
  /-- `halted` (10_state.md R46) -/
  halted : Bool
  /-- the fault record (10_state.md R47) -/
  faultRec : FaultRecord
  /-- the output port: `Out(v)`, one value for each PRN -/
  outputs : List Byte
  /-- the diagnostic port -/
  diags : List Diag
  /-- the trace port -/
  traces : List Trace
  deriving DecidableEq, Repr

/-- The reasons for which the engine takes no step. A fault of the engine itself is not here: it is a next state
with the fault record written (60_exceptions.md R244; log entry 4). -/
inductive Fault where
  /-- Raised by `step` alone, when `halted` = 1: the engine takes no step (40_cycle.md R131; 10_state.md R46). Safe:
  the spec gives no step here. -/
  | engineHalted
  /-- Raised by `step` alone, when `faulted` = 1: the engine takes no step (40_cycle.md R131; 60_exceptions.md R248;
  I15: stuck). Safe: the spec gives no step here. -/
  | engineFaulted
  deriving DecidableEq, Repr

/-- The reasons for which an instruction is given no meaning. None is used: all twelve have theirs. -/
inductive Refusal where
  /-- Raised by `exec` for an instruction that has no meaning yet, by its mnemonic. Safe. No arm uses it. -/
  | notModelled (mnemonic : String)
  deriving DecidableEq, Repr

/-- What a step or a meaning answers. -/
abbrev Outcome := Host.Outcome State Fault Refusal

/-- The state a construction with the parameters `c` gives (70_reset_and_hazards.md R290; 10_state.md R51). -/
def State.construct (c : Config) : State :=
  { cfg := c
    mem := []
    regs := #v[0, 0, 0, 0, 0, 0, 0, c.spInit]
    pc := 0
    fl := 0x00
    halted := false
    faultRec := FaultRecord.clear
    outputs := []
    diags := []
    traces := [] }

/-- The machine right after reset, with this hardware's parameters (70_reset_and_hazards.md R290; log entry 1). -/
def State.reset : State := State.construct Config.reference

end Sys2Proof.Machine
end

