-- ==== Sys2Proof/Machine/Ops.lean ====
section
/-! DEFINITION. The named operations over memory, registers, pc and ports, and fault entry (00_scope.md R10 to R13).
The engine has no return from a fault (60_exceptions.md R248): only reset leaves the faulted state. -/

namespace Sys2Proof.Machine

/-! ## Memory as data -/

/-- The byte at an address: the first entry listed for it, 0 if there is none (20_memory.md R60). -/
def Memory.read : Memory → Nat → Byte
  | [], _ => 0
  | (k, x) :: m, a => if k = a then x else Memory.read m a

/-- Inserts an entry at its place among rising addresses. -/
def Memory.insert (a : Nat) (v : Byte) : Memory → Memory
  | [] => [(a, v)]
  | (k, x) :: m => if a < k then (a, v) :: (k, x) :: m else (k, x) :: Memory.insert a v m

/-- Removes every entry of an address. -/
def Memory.erase (m : Memory) (a : Nat) : Memory := m.filter (fun c => !(c.1 == a))

/-- Writes one byte. Writing 0, what an unlisted address reads as, removes the entry. -/
def Memory.write (m : Memory) (a : Nat) (v : Byte) : Memory :=
  if v = 0 then m.erase a else (m.erase a).insert a v

/-- The canonical form: addresses strictly rising, and no entry that holds 0. -/
def Memory.wf : Memory → Bool
  | [] => true
  | (k, x) :: m => decide (x ≠ 0) && m.all (fun c => decide (k < c.1)) && Memory.wf m

/-! ## Raising a fault -/

/-- What a step can raise, with its `fault_info` (00_scope.md R11; 60_exceptions.md R241). UnsupportedOperation is
not here: no rule raises it (42_alu.md R171). -/
inductive Raise where
  | memoryFault (addr : Nat)
  | invalidRegister (byte : Byte)
  | unknownInstruction (op : Byte)
  deriving DecidableEq, Repr

/-- The fault causes of 60_exceptions.md R241. -/
inductive FaultCause where
  | none
  | memoryFault
  | invalidRegister
  | unknownInstruction
  | unsupportedOperation
  deriving DecidableEq, Repr

/-- The cause codes of 60_exceptions.md R241. -/
def FaultCause.code : FaultCause → BitVec 3
  | .none => 0
  | .memoryFault => 1
  | .invalidRegister => 2
  | .unknownInstruction => 3
  | .unsupportedOperation => 4

/-- The cause of a raise. -/
def Raise.cause : Raise → FaultCause
  | .memoryFault _ => .memoryFault
  | .invalidRegister _ => .invalidRegister
  | .unknownInstruction _ => .unknownInstruction

/-- The `fault_info` of a raise: the address, the operand byte or the opcode (60_exceptions.md R241). -/
def Raise.info : Raise → Nat
  | .memoryFault addr => addr
  | .invalidRegister byte => byte.toNat
  | .unknownInstruction op => op.toNat

/-- Fault entry (60_exceptions.md R244): the record is written with the pc of the faulting instruction and its
opcode, `op?` being `none` if no opcode was fetched; nothing else changes (R245). -/
def State.takeFault (s : State) (op? : Option Byte) (e : Raise) : State :=
  { s with
    faultRec :=
      { faulted := true
        cause := e.cause.code
        pc := s.pc
        opcodeValid := op?.isSome
        opcode := op?.getD 0
        info := e.info } }

/-- The end of an instruction with opcode `op` that started in `s`: its writes become visible at once, or it raised
and wrote nothing (00_scope.md R11, R13; 60_exceptions.md R245). -/
def State.commit (s : State) (op : Byte) : Except Raise State → Outcome
  | .ok t => .next t
  | .error e => .next (s.takeFault (some op) e)

/-! ## Registers, pc and ports -/

/-- R7, the stack pointer (10_state.md R32). -/
abbrev spReg : Fin 8 := 7

/-- `x[i]` (00_scope.md R9). -/
def State.reg (s : State) (i : Fin 8) : Byte := s.regs[i.val]

/-- `x[i] <- v` (00_scope.md R9). -/
def State.setReg (s : State) (i : Fin 8) (v : Byte) : State :=
  { s with regs := s.regs.set i.val v i.isLt }

/-- `sp`, another name for `x[7]` (10_state.md R32). -/
abbrev State.sp (s : State) : Byte := s.reg spReg

/-- `pc <- pc + len`, an exact sum (10_state.md R38, R39). -/
def State.advance (s : State) (len : Nat) : State := { s with pc := s.pc + len }

/-- `pc <- zext_PC_W(v)` (00_scope.md R8; 44_control_transfer.md R210). -/
def State.jumpTo (s : State) (v : Byte) : State := { s with pc := v.toNat }

/-- `emit Out(v)` (00_scope.md R12; 41_data_io.md R154). -/
def State.emitOut (s : State) (v : Byte) : State := { s with outputs := s.outputs ++ [v] }

/-- `emit Diag(pc, op)` (00_scope.md R12; 60_exceptions.md R243). -/
def State.emitDiag (s : State) (op : Byte) : State := { s with diags := s.diags ++ [⟨s.pc, op⟩] }

/-! ## Memory accesses of the engine -/

/-- `T(addr)`: the byte at an address, or nothing if the address is beyond memory; it never faults
(40_cycle.md R129; 60_exceptions.md R255, R261). -/
def State.peek (s : State) (a : Nat) : Option Byte :=
  if a < s.cfg.memSize then some (s.mem.read a) else none

/-- `if addr >= MEM_SIZE: raise MemoryFault(addr)` (00_scope.md R10; 20_memory.md R62). -/
def State.checkAddr (s : State) (a : Nat) : Except Raise Unit :=
  if a < s.cfg.memSize then .ok () else .error (.memoryFault a)

/-- `MemRead(addr, 1)` (00_scope.md R10). -/
def State.memRead (s : State) (a : Nat) : Except Raise Byte := do
  s.checkAddr a
  return s.mem.read a

/-- `MemWrite(addr, 1, v)` (00_scope.md R10). -/
def State.memWrite (s : State) (a : Nat) (v : Byte) : Except Raise State := do
  s.checkAddr a
  return { s with mem := s.mem.write a v }

/-- `emit Trace(pc, T(pc), T(pc+1), T(pc+2), x[0..7])` if `TRACE_EN` (60_exceptions.md R255). -/
def State.emitTrace (s : State) : State :=
  if s.cfg.traceEn then
    { s with traces := s.traces ++ [⟨s.pc, s.peek s.pc, s.peek (s.pc + 1), s.peek (s.pc + 2), s.regs⟩] }
  else s

/-! ## The stack-pointer logic (43_stack.md R190) -/

/-- `s <- (x[7] - 1) mod 256; if s >= MEM_SIZE: raise MemoryFault(s); x[7] <- s` (43_stack.md R191). -/
def State.decSp (s : State) : Except Raise State := do
  let top : Byte := s.sp - 1
  s.checkAddr top.toNat
  return s.setReg spReg top

/-- `x[7] <- (x[7] + 1) mod 256` (43_stack.md R193). -/
def State.incSp (s : State) : State := s.setReg spReg (s.sp + 1)

end Sys2Proof.Machine
end

