-- ==== Sys2Proof/Machine/Flags.lean ====
section
/-! DEFINITION. The flags register and the compare that writes it (10_state.md R42 to R45; 42_alu.md R174, R175). -/

namespace Sys2Proof.Machine

/-- FL with only E set: bit 0. -/
def flagEqual : Byte := 0x01

/-- FL with only G set: bit 1. -/
def flagGreater : Byte := 0x02

/-- FL with only L set: bit 2. -/
def flagLess : Byte := 0x04

/-- `fl[0]`, the E bit (10_state.md R42). -/
def State.flagE (s : State) : Bool := s.fl.getLsbD 0

/-- `fl[1]`, the G bit (10_state.md R42); read by no instruction. -/
def State.flagG (s : State) : Bool := s.fl.getLsbD 1

/-- `fl[2]`, the L bit (10_state.md R42); read by no instruction. -/
def State.flagL (s : State) : Bool := s.fl.getLsbD 2

/-- The new FL of a compare of two unsigned values (42_alu.md R174, R175). -/
def compareFlags (x y : Byte) : Byte :=
  if x.toNat = y.toNat then flagEqual
  else if x.toNat > y.toNat then flagGreater
  else flagLess

end Sys2Proof.Machine
end

