-- ==== Sys2Proof/Machine/Operands.lean ====
section
/-! DEFINITION. The operand forms (30_encoding.md R93, R94): a register index, which is a whole byte, and LDI's
immediate, which is the byte itself. -/

namespace Sys2Proof.Machine

/-- The register a register-index byte names, or `InvalidRegister(byte)`: the byte is neither masked nor truncated
(30_encoding.md R93; 40_cycle.md R124). -/
def regIndex (b : Byte) : Except Raise (Fin 8) :=
  if h : b.toNat < 8 then .ok ⟨b.toNat, h⟩ else .error (.invalidRegister b)

/-- The operand byte that names register `r` (30_encoding.md R93). -/
def regByte (r : Fin 8) : Byte := BitVec.ofNat 8 r.val

/-- The value of an immediate byte: used as it is (30_encoding.md R94). -/
def immediate (b : Byte) : Byte := b

end Sys2Proof.Machine
end

