-- ==== Sys2Proof/Machine/Alu.lean ====
section
/-! DEFINITION. The ALU: MUL and CMP (42_alu.md). The ALU itself computes a result or a new FL and never writes pc
(R170); the meanings advance pc. -/

namespace Sys2Proof.Machine

/-- The ALU's MUL: the exact product, of which the low 8 bits are kept (42_alu.md R172, R173). -/
def aluMul (x y : Byte) : Byte := BitVec.ofNat 8 (x.toNat * y.toNat)

/-- `x[ra] <- (x[ra] * x[rb]) mod 256; pc <- pc + 3`, ra checked before rb (42_alu.md R172; 40_cycle.md R124). -/
def mulEffect (ra rb : Byte) (s : State) : Except Raise State := do
  let a ← regIndex ra
  let b ← regIndex rb
  return (s.setReg a (aluMul (s.reg a) (s.reg b))).advance 3

/-- MUL (42_alu.md R172). -/
def execMul (ra rb : Byte) (s : State) : Outcome := s.commit opMUL (mulEffect ra rb s)

/-- `fl <-` the outcome of the compare, the old value overwritten entirely; `pc <- pc + 3` (42_alu.md R174). -/
def cmpEffect (ra rb : Byte) (s : State) : Except Raise State := do
  let a ← regIndex ra
  let b ← regIndex rb
  return { s with fl := compareFlags (s.reg a) (s.reg b) }.advance 3

/-- CMP (42_alu.md R174). -/
def execCmp (ra rb : Byte) (s : State) : Outcome := s.commit opCMP (cmpEffect ra rb s)

end Sys2Proof.Machine
end

