-- ==== Sys2Proof/Machine/Control.lean ====
section
/-! DEFINITION. Machine control: HLT (40_cycle.md section 3). -/

namespace Sys2Proof.Machine

/-- `halted <- 1; pc <- pc + 1` (40_cycle.md R130). -/
def hltEffect (s : State) : Except Raise State :=
  return { s with halted := true }.advance 1

/-- HLT (40_cycle.md R130). -/
def execHlt (s : State) : Outcome := s.commit opHLT (hltEffect s)

end Sys2Proof.Machine
end

