-- ==== Sys2Proof/Machine/DataIo.lean ====
section
/-! DEFINITION. Data movement and output: LDI and PRN (41_data_io.md). -/

namespace Sys2Proof.Machine

/-- `x[ra] <- imm8; pc <- pc + 3` (41_data_io.md R151). -/
def ldiEffect (ra imm : Byte) (s : State) : Except Raise State := do
  let r ← regIndex ra
  return (s.setReg r (immediate imm)).advance 3

/-- LDI (41_data_io.md R151). -/
def execLdi (ra imm : Byte) (s : State) : Outcome := s.commit opLDI (ldiEffect ra imm s)

/-- `emit Out(x[ra]); pc <- pc + 2` (41_data_io.md R153). -/
def prnEffect (ra : Byte) (s : State) : Except Raise State := do
  let r ← regIndex ra
  return (s.emitOut (s.reg r)).advance 2

/-- PRN (41_data_io.md R153). -/
def execPrn (ra : Byte) (s : State) : Outcome := s.commit opPRN (prnEffect ra s)

end Sys2Proof.Machine
end

