-- ==== Sys2Proof/Machine/Stack.lean ====
section
/-! DEFINITION. The stack: PUSH and POP (43_stack.md). Statements run in the order written, which matters when the
operand is R7 (00_scope.md R13). -/

namespace Sys2Proof.Machine

/-- `x[7] <- x[7] - 1` with its check, `MemWrite(x[7], 1, x[ra])` with x[ra] read after the SP write, `pc <- pc + 2`
(43_stack.md R191). -/
def pushEffect (ra : Byte) (s : State) : Except Raise State := do
  let r ← regIndex ra
  let s₁ ← s.decSp
  let s₂ ← s₁.memWrite s₁.sp.toNat (s₁.reg r)
  return s₂.advance 2

/-- PUSH (43_stack.md R191). -/
def execPush (ra : Byte) (s : State) : Outcome := s.commit opPUSH (pushEffect ra s)

/-- `x[ra] <- M[x[7]]` with its check, `x[7] <- x[7] + 1` with x[7] read after that write, `pc <- pc + 2`; the cell
keeps its value (43_stack.md R192, R193). -/
def popEffect (ra : Byte) (s : State) : Except Raise State := do
  let r ← regIndex ra
  let v ← s.memRead s.sp.toNat
  return ((s.setReg r v).incSp).advance 2

/-- POP (43_stack.md R193). -/
def execPop (ra : Byte) (s : State) : Outcome := s.commit opPOP (popEffect ra s)

end Sys2Proof.Machine
end

