-- ==== Sys2Proof/Machine/Transfer.lean ====
section
/-! DEFINITION. Control transfer: CALL, RET, JMP, JEQ and JNE (44_control_transfer.md). -/

namespace Sys2Proof.Machine

/-- The return address is checked, then the new SP; `x[7] <- x[7] - 1`, `MemWrite(x[7], 1, ret)`, and
`pc <- zext_PC_W(x[ra])` with x[ra] read after the SP write (44_control_transfer.md R211). -/
def callEffect (ra : Byte) (s : State) : Except Raise State := do
  let r ← regIndex ra
  let ret := s.pc + 2
  s.checkAddr ret
  let s₁ ← s.decSp
  let s₂ ← s₁.memWrite s₁.sp.toNat (BitVec.ofNat 8 ret)
  return s₂.jumpTo (s₂.reg r)

/-- CALL (44_control_transfer.md R211). -/
def execCall (ra : Byte) (s : State) : Outcome := s.commit opCALL (callEffect ra s)

/-- `pc <- zext_PC_W(M[x[7]])` with its check, `x[7] <- x[7] + 1` (44_control_transfer.md R212). -/
def retEffect (s : State) : Except Raise State := do
  let v ← s.memRead s.sp.toNat
  return (s.jumpTo v).incSp

/-- RET (44_control_transfer.md R212). -/
def execRet (s : State) : Outcome := s.commit opRET (retEffect s)

/-- `pc <- zext_PC_W(x[ra])` (44_control_transfer.md R213). -/
def jmpEffect (ra : Byte) (s : State) : Except Raise State := do
  let r ← regIndex ra
  return s.jumpTo (s.reg r)

/-- JMP (44_control_transfer.md R213). -/
def execJmp (ra : Byte) (s : State) : Outcome := s.commit opJMP (jmpEffect ra s)

/-- The register check, whatever the outcome of the branch, then `pc <- zext_PC_W(x[ra])` if the branch is taken and
`pc <- pc + 2` if not (44_control_transfer.md R214, R215; 40_cycle.md R124). -/
def branchEffect (taken : Bool) (ra : Byte) (s : State) : Except Raise State := do
  let r ← regIndex ra
  return if taken then s.jumpTo (s.reg r) else s.advance 2

/-- JEQ: taken if `fl[0]` = 1 (44_control_transfer.md R214). -/
def execJeq (ra : Byte) (s : State) : Outcome := s.commit opJEQ (branchEffect s.flagE ra s)

/-- JNE: taken if `fl[0]` = 0 (44_control_transfer.md R215). -/
def execJne (ra : Byte) (s : State) : Outcome := s.commit opJNE (branchEffect (!s.flagE) ra s)

end Sys2Proof.Machine
end

