-- ==== Sys2Proof/Machine/Fetch.lean ====
section
/-! DEFINITION. The whole step: its fetch phase, what it does when the fetched bytes are no instruction, and the order
of its phases (40_cycle.md R121 to R129). -/

namespace Sys2Proof.Machine

/-- The bytes memory holds from an address on, at most `k` of them, up to the end of memory. -/
def State.bytesFrom (s : State) : Nat → Nat → List Byte
  | 0, _ => []
  | k + 1, a =>
    match s.peek a with
    | some b => b :: s.bytesFrom k (a + 1)
    | none => []

/-- What the decoder may take at the pc: the bytes at pc, pc+1 and pc+2 that exist. It takes only those its
instruction has, and is short of one exactly where the fetch of that byte raises MemoryFault (40_cycle.md R123;
30_encoding.md R100; log entry 6). -/
def State.fetched (s : State) : List Byte := s.bytesFrom 3 s.pc

/-- Stores bytes at an address and the ones after it, as the load port would (20_memory.md R69); a byte beyond
memory is not stored. -/
def State.storeBytes (s : State) : Nat → List Byte → State
  | _, [] => s
  | a, b :: bs =>
    { s with mem := if a < s.cfg.memSize then s.mem.write a b else s.mem }.storeBytes (a + 1) bs

/-- An unassigned opcode: skipped with a diagnostic, `emit Diag(pc, op); pc <- pc + 1` (lenient, 40_cycle.md R125),
or `raise UnknownInstruction(op)` (strict, R126). -/
def State.unassigned (s : State) (op : Byte) : State :=
  match s.cfg.policy with
  | .lenient => (s.emitDiag op).advance 1
  | .strict => s.takeFault (some op) (.unknownInstruction op)

/-- The next state when the fetched bytes are no instruction: a MemoryFault of the opcode fetch (40_cycle.md R121)
or of an operand fetch (R123), or an unassigned opcode. -/
def State.onReject (s : State) : Reject → State
  | .noOpcode => s.takeFault none (.memoryFault s.pc)
  | .unassigned op => s.unassigned op
  | .noOperandA op => s.takeFault (some op) (.memoryFault (s.pc + 1))
  | .noOperandB op => s.takeFault (some op) (.memoryFault (s.pc + 2))

/-- The whole step (40_cycle.md R129): taken only if `halted` = 0 and `faulted` = 0 (R120, R131; log entry 4); the
trace record first, then fetch and decode, then execute. -/
def State.cycle (s : State) : Outcome :=
  if s.halted then .fault .engineHalted
  else if s.faultRec.faulted then .fault .engineFaulted
  else
    match decode s.emitTrace.fetched with
    | .instr i _ => exec i s.emitTrace
    | .reject r => .next (s.emitTrace.onReject r)

end Sys2Proof.Machine
end

