-- ==== Sys2Proof/Machine/Step.lean ====
section
/-! DEFINITION. One step of the engine (40_cycle.md R129). -/

namespace Sys2Proof.Machine

/-- The step (40_cycle.md R129). -/
def step (s : State) : Host.Outcome State Fault Refusal := s.cycle

/-- `s` with an instruction word stored where the next step fetches (log entry 7). -/
def State.withFetchWord (s : State) (nbits w : Nat) : State := s.storeBytes s.pc (wordBytes nbits w)

end Sys2Proof.Machine
end

