-- ==== Sys2Proof/Machine/HostPort.lean ====
section
/-! DEFINITION. The host's ports into the engine: construct, load, run and inspect (60_exceptions.md R258). The
output, diagnostic and trace ports are the lists in `State`. -/

namespace Sys2Proof.Machine

/-! ## construct / reset -/

/-- Construction with the parameters `c`; a `MEM_SIZE` outside 12..256 is refused (70_reset_and_hazards.md R290;
00_scope.md R5; I24). -/
def hostConstruct (c : Config) : Option State := if c.Legal then some (State.construct c) else none

/-! ## load -/

/-- The answer of the load port (20_memory.md R69). LoadError is not an engine fault (60_exceptions.md R242). -/
inductive LoadAnswer where
  | ok
  | loadError
  deriving DecidableEq, Repr

/-- `write(address, value)`: one cell set to `value mod 256`, or LoadError and no change for an address outside
memory, a negative one included (20_memory.md R69, R70; D28). -/
def hostWrite (address value : Int) (s : State) : LoadAnswer × State :=
  if 0 ≤ address ∧ address < (s.cfg.memSize : Int) then
    (.ok, { s with mem := s.mem.write address.toNat (BitVec.ofInt 8 value) })
  else (.loadError, s)

/-- An ordered sequence of writes; those after the first LoadError are not made (20_memory.md R72; log entry 9). -/
def hostLoad : List (Int × Int) → State → LoadAnswer × State
  | [], s => (.ok, s)
  | (address, value) :: ws, s =>
    match hostWrite address value s with
    | (.ok, t) => hostLoad ws t
    | (.loadError, t) => (.loadError, t)

/-- The writes of a contiguous sequence of values from an address on. -/
def contiguousFrom : Nat → List Int → List (Int × Int)
  | _, [] => []
  | a, v :: vs => ((a : Int), v) :: contiguousFrom (a + 1) vs

/-- A contiguous load starting at address 0 (20_memory.md R72). -/
def hostLoadContiguous (values : List Int) (s : State) : LoadAnswer × State :=
  hostLoad (contiguousFrom 0 values) s

/-! ## run -/

/-- How a run ends (40_cycle.md R132). -/
inductive RunOutcome where
  | halted
  | fault (record : FaultRecord)
  | stepLimit
  deriving DecidableEq, Repr

/-- `run(step_limit)` (60_exceptions.md R259, R262; log entry 8): steps until halted, faulted or the limit, with the
state it leaves. -/
def hostRun : Nat → State → RunOutcome × State
  | limit, s =>
    if s.halted then (.halted, s)
    else if s.faultRec.faulted then (.fault s.faultRec, s)
    else
      match limit with
      | 0 => (.stepLimit, s)
      | k + 1 =>
        match step s with
        | .next t => hostRun k t
        | .fault _ => (.stepLimit, s)
        | .refused _ => (.stepLimit, s)

/-- `run()` without a limit returns `o` and leaves `t`: some number of steps gets there. A run for which there is no
such number never returns (40_cycle.md R132; 60_exceptions.md R259). -/
def RunReturns (s : State) (o : RunOutcome) (t : State) : Prop :=
  ∃ limit, hostRun limit s = (o, t) ∧ o ≠ .stepLimit

/-! ## inspect -/

/-- What the inspect port can be asked for (60_exceptions.md R261). -/
inductive InspectItem where
  | reg (i : Fin 8)
  | pc
  | fl
  | halted
  | faulted
  | faultCause
  | faultPc
  | faultOpcodeValid
  | faultOpcode
  | faultInfo
  | mem (address : Nat)
  deriving DecidableEq, Repr

/-- The inspect port: the current value, or nothing for a cell that does not exist. It changes nothing
(60_exceptions.md R261). -/
def inspect (s : State) : InspectItem → Option Nat
  | .reg i => some (s.reg i).toNat
  | .pc => some s.pc
  | .fl => some s.fl.toNat
  | .halted => some s.halted.toNat
  | .faulted => some s.faultRec.faulted.toNat
  | .faultCause => some s.faultRec.cause.toNat
  | .faultPc => some s.faultRec.pc
  | .faultOpcodeValid => some s.faultRec.opcodeValid.toNat
  | .faultOpcode => some s.faultRec.opcode.toNat
  | .faultInfo => some s.faultRec.info
  | .mem a => (s.peek a).map BitVec.toNat

end Sys2Proof.Machine
end

