-- ==== Sys2Proof/Safety.lean ====
section
/-! DEFINITION. The terms in which statements speak of the machine: what a running engine is, which memory holds an
instruction's bytes, what a state leaves unchanged, the machine's invariant, and what a successful run is. -/

namespace Sys2Proof.Machine

/-- The engine takes steps: `halted` = 0 and `faulted` = 0 (40_cycle.md R120). -/
abbrev Running (s : State) : Prop := s.halted = false ∧ s.faultRec.faulted = false

/-- Memory holds these bytes at an address and the ones after it, all of them inside memory. -/
abbrev HoldsAt (s : State) (a : Nat) (bytes : List Byte) : Prop :=
  ∀ k : Fin bytes.length, a + k.val < s.cfg.memSize ∧ s.mem.read (a + k.val) = bytes[k.val]

/-- The twelve assigned opcodes, as 30_encoding.md R95 lists them in hexadecimal. -/
def assignedOpcodes : List Byte := [0x01, 0x11, 0x45, 0x46, 0x47, 0x50, 0x54, 0x55, 0x56, 0x82, 0xA2, 0xA7]

/-- What the spec writes `T(addr)`: the byte at an address, or "absent" beyond memory (40_cycle.md R129). -/
def traceByte (s : State) (a : Nat) : Option Byte := if a < s.cfg.memSize then some (s.mem.read a) else none

/-- The state once the step has emitted its trace record: one more record if `TRACE_EN`, nothing else
(60_exceptions.md R255, R256). -/
def traced (s : State) : State :=
  { s with
    traces :=
      if s.cfg.traceEn then
        s.traces ++ [⟨s.pc, traceByte s s.pc, traceByte s (s.pc + 1), traceByte s (s.pc + 2), s.regs⟩]
      else s.traces }

/-- Every byte of memory reads the same in both states. -/
def SameMemory (s t : State) : Prop := ∀ a : Nat, t.mem.read a = s.mem.read a

/-- Every register reads the same in both states. -/
def SameRegs (s t : State) : Prop := ∀ r : Fin 8, t.reg r = s.reg r

/-- The parameters, the run state, the fault record and the records of the diagnostic and trace ports are the same
in both states: what no instruction but HLT (`halted`) changes when it completes. -/
structure SameRest (s t : State) : Prop where
  cfg : t.cfg = s.cfg
  halted : t.halted = s.halted
  faultRec : t.faultRec = s.faultRec
  diags : t.diags = s.diags
  traces : t.traces = s.traces

/-- The two states differ at most in `TRACE_EN` and in the records of the trace port. -/
def SameButTrace (s t : State) : Prop :=
  t = { s with cfg := { s.cfg with traceEn := t.cfg.traceEn }, traces := t.traces }

/-- The state after the fault `InvalidRegister(byte)` of an instruction with opcode `op` (60_exceptions.md R244):
`s` with the fault record written and nothing else changed. -/
def invalidRegisterState (s : State) (op byte : Byte) : State :=
  { s with
    faultRec := { faulted := true, cause := 2, pc := s.pc, opcodeValid := true, opcode := op, info := byte.toNat } }

/-- The state after the fault `MemoryFault(addr)` of an instruction with opcode `op` (60_exceptions.md R244):
`s` with the fault record written and nothing else changed. -/
def memoryFaultState (s : State) (op : Byte) (addr : Nat) : State :=
  { s with
    faultRec := { faulted := true, cause := 1, pc := s.pc, opcodeValid := true, opcode := op, info := addr } }

/-- A fault record is either all clear, or one that fault entry can write (10_state.md R47; 60_exceptions.md R241,
R244): a cause of 1, 2 or 3, an opcode unless it is the MemoryFault of the opcode fetch, UnknownInstruction only
under `strict`, and the pc of the faulting instruction, which pc still holds (R245). -/
def FaultRecord.Legal (f : FaultRecord) (c : Config) (pc : Nat) : Prop :=
  f = FaultRecord.clear ∨
    (f.faulted = true ∧ f.pc = pc ∧
      (f.cause = 1 ∨ (f.cause = 2 ∧ f.opcodeValid = true ∧ 8 ≤ f.info ∧ f.info < 256) ∨
        (f.cause = 3 ∧ f.opcodeValid = true ∧ f.info = f.opcode.toNat ∧ c.policy = .strict)) ∧
      (f.opcodeValid = true ∨ (f.opcode = 0 ∧ f.cause = 1 ∧ f.info = pc)) ∧
      (f.cause = 1 → c.memSize ≤ f.info))

/-- The machine's invariant: legal parameters, memory in canonical form and inside `MEM_SIZE`, pc in its range
(10_state.md R37, R39; 44_control_transfer.md R210), at most one flag set and bits 7:3 clear (10_state.md R44), a
legal fault record, never halted and faulted at once, and no record on a port that the parameters keep silent. -/
structure Inv (s : State) : Prop where
  params : s.cfg.Legal
  memCanonical : s.mem.wf = true
  memInside : ∀ c ∈ s.mem, c.1 < s.cfg.memSize
  pcRange : s.pc ≤ max s.cfg.memSize 255
  flags : s.fl = 0x00 ∨ s.fl = 0x01 ∨ s.fl = 0x02 ∨ s.fl = 0x04
  record : s.faultRec.Legal s.cfg s.pc
  oneEnd : ¬(s.halted = true ∧ s.faultRec.faulted = true)
  quietDiag : s.cfg.policy = .strict → s.diags = []
  quietTrace : s.cfg.traceEn = false → s.traces = []

/-- A run that ends well: only `Halted` is a successful end (40_cycle.md R132; D32). -/
def SucceedsWith (s t : State) : Prop := RunReturns s .halted t

end Sys2Proof.Machine
end

