-- ==== Sys2Proof/Certificates/Slice0/Obligations.lean ====
section
/-! DEFINITION. The statements for the provers. An operand is written `regByte r` for the byte that names register
`r` (every byte 0..7); the bytes 8..255 are the subject of `InvalidRegisterIsRaised`. -/

open Sys2Proof Sys2Proof.Machine

/-! ## Encoding (30_encoding.md) -/

/-- R92, R95, R96, R100, R103: the decoder reads an instruction from bytes exactly when they are its encoding
followed by anything. -/
def Obligations.DecodeInvertsEncode : Prop :=
  ∀ (bytes : List Byte) (i : Instr) (rest : List Byte), decode bytes = .instr i rest ↔ bytes = encode i ++ rest

/-- R95, R103: a few words written out from the encoding column. -/
def Obligations.SampleWordsDecode : Prop :=
  decode [0b00000001] = .instr .hlt [] ∧
    decode [0b01000101, 0x07] = .instr (.push 7) [] ∧
    decode [0b01010110, 0x03] = .instr (.jne 3) [] ∧
    decode [0b10000010, 0x00, 0x08] = .instr (.ldi 0 8) [] ∧
    decode [0b10100010, 0x00, 0x01] = .instr (.mul 0 1) []

/-- R95: each of the twelve opcodes gives its instruction with its operands in the format's order, and every other
opcode gives none. -/
def Obligations.OpcodeMapIsExactlyTheTable : Prop :=
  (∀ (op : Byte) (rest : List Byte), decode (op :: rest) = .reject (.unassigned op) ↔ op ∉ assignedOpcodes) ∧
    (∀ rest : List Byte,
      decode (0x01 :: rest) = .instr .hlt rest ∧ decode (0x11 :: rest) = .instr .ret rest) ∧
    (∀ (a : Byte) (rest : List Byte),
      decode (0x45 :: a :: rest) = .instr (.push a) rest ∧
      decode (0x46 :: a :: rest) = .instr (.pop a) rest ∧
      decode (0x47 :: a :: rest) = .instr (.prn a) rest ∧
      decode (0x50 :: a :: rest) = .instr (.call a) rest ∧
      decode (0x54 :: a :: rest) = .instr (.jmp a) rest ∧
      decode (0x55 :: a :: rest) = .instr (.jeq a) rest ∧
      decode (0x56 :: a :: rest) = .instr (.jne a) rest) ∧
    (∀ (a b : Byte) (rest : List Byte),
      decode (0x82 :: a :: b :: rest) = .instr (.ldi a b) rest ∧
      decode (0xA2 :: a :: b :: rest) = .instr (.mul a b) rest ∧
      decode (0xA7 :: a :: b :: rest) = .instr (.cmp a b) rest)

/-- R91: bits 7:6 of the opcode are the number of operand bytes, the length is one more, and 0b11 does not occur. -/
def Obligations.LengthIsInTheTopTwoOpcodeBits : Prop :=
  ∀ i : Instr, ∃ (op : Byte) (operands : List Byte),
    encode i = op :: operands ∧ operands.length = (op >>> 6).toNat ∧ i.length = (op >>> 6).toNat + 1 ∧
      (op >>> 6).toNat ≠ 3

/-- R97 (an inference the spec marks as its own): bit 5 is 1 exactly for MUL and CMP, and bit 4 exactly for CALL,
RET, JMP, JEQ and JNE. -/
def Obligations.OpcodeBitsFiveAndFour : Prop :=
  ∀ (i : Instr) (op : Byte) (operands : List Byte), encode i = op :: operands →
    (op.getLsbD 5 = true ↔ (∃ a b, i = .mul a b) ∨ ∃ a b, i = .cmp a b) ∧
    (op.getLsbD 4 = true ↔
      i = .ret ∨ (∃ a, i = .call a) ∨ (∃ a, i = .jmp a) ∨ (∃ a, i = .jeq a) ∨ ∃ a, i = .jne a)

/-! ## The step (40_cycle.md) -/

/-- R121, R122, R123, R127, R129: when memory holds an instruction's bytes at pc, a running engine's step is that
instruction's meaning, after the trace record and nothing else. It holds of instructions with a register byte of
8..255 too, whose meaning is the fault. -/
def Obligations.StepRunsTheInstructionAtPc : Prop :=
  ∀ (s : State) (i : Instr), Running s → HoldsAt s s.pc (encode i) → step s = exec i (traced s)

/-- R120, R131: the engine takes a step exactly while it is neither halted nor faulted. That no step is answered
with a named stop is the model's choice (log entry 4). -/
def Obligations.StepsExactlyWhileRunning : Prop :=
  ∀ s : State,
    ((∃ t, step s = .next t) ↔ Running s) ∧
    (s.halted = true → step s = .fault .engineHalted) ∧
    (s.halted = false → s.faultRec.faulted = true → step s = .fault .engineFaulted)

/-- R255: every step of a running engine, the one that faults included, emits one trace record of the state it
starts in if TRACE_EN, and none otherwise. -/
def Obligations.EveryStepEmitsItsTraceRecord : Prop :=
  ∀ s t : State, Running s → step s = .next t →
    (s.cfg.traceEn = true →
      t.traces = s.traces ++
        [⟨s.pc, traceByte s s.pc, traceByte s (s.pc + 1), traceByte s (s.pc + 2), s.regs⟩]) ∧
    (s.cfg.traceEn = false → t.traces = s.traces)

/-- R256: two engines that differ only in TRACE_EN and in trace records end every run the same way, in states that
differ only in these. -/
def Obligations.TraceChangesNoRun : Prop :=
  ∀ (limit : Nat) (s t : State), SameButTrace s t →
    (hostRun limit s).1 = (hostRun limit t).1 ∧ SameButTrace (hostRun limit s).2 (hostRun limit t).2

/-- R121: a fetch at or above MEM_SIZE raises MemoryFault(pc), after the trace record, with no opcode in the
record. -/
def Obligations.OpcodeFetchBeyondMemoryFaults : Prop :=
  ∀ s : State, Running s → s.cfg.memSize ≤ s.pc →
    step s = .next { traced s with
      faultRec :=
        { faulted := true, cause := 1, pc := s.pc, opcodeValid := false, opcode := 0, info := s.pc } }

/-- R123, and R246 points 3 and 4: an operand byte the instruction has, beyond memory, raises MemoryFault of its
address, operand_a's before operand_b's, and operand_b's whatever operand_a is. -/
def Obligations.OperandFetchBeyondMemoryFaults : Prop :=
  ∀ (s : State) (op : Byte), Running s → HoldsAt s s.pc [op] →
    (op ∈ [0x45, 0x46, 0x47, 0x50, 0x54, 0x55, 0x56, 0x82, 0xA2, 0xA7] → s.cfg.memSize ≤ s.pc + 1 →
      step s = .next (memoryFaultState (traced s) op (s.pc + 1))) ∧
    (op ∈ [0x82, 0xA2, 0xA7] → s.pc + 1 < s.cfg.memSize → s.cfg.memSize ≤ s.pc + 2 →
      step s = .next (memoryFaultState (traced s) op (s.pc + 2)))

/-- R125: an unassigned opcode under lenient is one diagnostic and pc + 1, and nothing else changes. -/
def Obligations.LenientSkipsOneByte : Prop :=
  ∀ (s : State) (op : Byte), Running s → HoldsAt s s.pc [op] → op ∉ assignedOpcodes → s.cfg.policy = .lenient →
    step s = .next { traced s with pc := s.pc + 1, diags := s.diags ++ [⟨s.pc, op⟩] }

/-- R126, and R246 point 2: an unassigned opcode under strict raises UnknownInstruction(op), whatever bytes follow
it. -/
def Obligations.StrictRaisesUnknownInstruction : Prop :=
  ∀ (s : State) (op : Byte), Running s → HoldsAt s s.pc [op] → op ∉ assignedOpcodes → s.cfg.policy = .strict →
    step s = .next { traced s with
      faultRec :=
        { faulted := true, cause := 3, pc := s.pc, opcodeValid := true, opcode := op, info := op.toNat } }

/-- R128: what each step writes to pc; a step that raises does not write it. -/
def Obligations.StepWritesPcByTheTable : Prop :=
  ∀ s t : State, Running s → step s = .next t →
    (t.faultRec.faulted = true → t.pc = s.pc) ∧
    (t.faultRec.faulted = false →
      (s.mem.read s.pc = 0x01 → t.pc = s.pc + 1) ∧
      (s.mem.read s.pc ∈ [0x82, 0xA2, 0xA7] → t.pc = s.pc + 3) ∧
      (s.mem.read s.pc ∈ [0x47, 0x45, 0x46] → t.pc = s.pc + 2) ∧
      (s.mem.read s.pc = 0x11 → t.pc = (s.mem.read s.sp.toNat).toNat) ∧
      (∀ r : Fin 8, s.mem.read (s.pc + 1) = regByte r →
        (s.mem.read s.pc = 0x50 → t.pc = (if r = 7 then s.sp - 1 else s.reg r).toNat) ∧
        (s.mem.read s.pc = 0x54 → t.pc = (s.reg r).toNat) ∧
        (s.mem.read s.pc = 0x55 → t.pc = if s.fl.getLsbD 0 = true then (s.reg r).toNat else s.pc + 2) ∧
        (s.mem.read s.pc = 0x56 → t.pc = if s.fl.getLsbD 0 = false then (s.reg r).toNat else s.pc + 2)) ∧
      (s.mem.read s.pc ∉ assignedOpcodes → t.pc = s.pc + 1))

/-! ## Faults (60_exceptions.md) -/

/-- R245: a step that faults leaves the state it started in, with its trace record and the fault record of that pc
and opcode; `halted` stays. -/
def Obligations.FaultsArePrecise : Prop :=
  ∀ s t : State, Running s → step s = .next t → t.faultRec.faulted = true →
    t = { traced s with faultRec := t.faultRec } ∧ t.halted = false ∧ t.faultRec.pc = s.pc ∧
    (s.pc < s.cfg.memSize → t.faultRec.opcodeValid = true ∧ t.faultRec.opcode = s.mem.read s.pc) ∧
    (s.cfg.memSize ≤ s.pc → t.faultRec.opcodeValid = false ∧ t.faultRec.opcode = 0)

/-- R241: no step faults for another reason than the table's: an address at or above MEM_SIZE, an operand byte of 8
or more, or an unassigned opcode under strict. Causes 0 and 4 to 7 are never recorded. -/
def Obligations.FaultsOnlyForTheListedCauses : Prop :=
  ∀ s t : State, Running s → step s = .next t → t.faultRec.faulted = true →
    (t.faultRec.cause = 1 ∧ s.cfg.memSize ≤ t.faultRec.info ∧
      (t.faultRec.info = s.pc ∨ t.faultRec.info = s.pc + 1 ∨ t.faultRec.info = s.pc + 2 ∨
        (s.mem.read s.pc ∈ [0x45, 0x50] ∧ t.faultRec.info = (s.sp - 1).toNat) ∨
        (s.mem.read s.pc ∈ [0x46, 0x11] ∧ t.faultRec.info = s.sp.toNat))) ∨
    (t.faultRec.cause = 2 ∧ 8 ≤ t.faultRec.info ∧
      (t.faultRec.info = (s.mem.read (s.pc + 1)).toNat ∨
        (s.mem.read s.pc ∈ [0xA2, 0xA7] ∧ t.faultRec.info = (s.mem.read (s.pc + 2)).toNat))) ∨
    (t.faultRec.cause = 3 ∧ s.cfg.policy = .strict ∧ s.mem.read s.pc ∉ assignedOpcodes ∧
      t.faultRec.info = (s.mem.read s.pc).toNat)

/-- R93, R124, and R246 points 5 and 6: an operand byte of 8 or more in a register position raises InvalidRegister
of that byte, in each of the ten instructions that have one, before anything the instruction does or checks, ra
before rb. -/
def Obligations.InvalidRegisterIsRaised : Prop :=
  (∀ (a b : Byte) (s : State), 8 ≤ a.toNat →
    exec (.push a) s = .next (invalidRegisterState s 0x45 a) ∧
    exec (.pop a) s = .next (invalidRegisterState s 0x46 a) ∧
    exec (.prn a) s = .next (invalidRegisterState s 0x47 a) ∧
    exec (.call a) s = .next (invalidRegisterState s 0x50 a) ∧
    exec (.jmp a) s = .next (invalidRegisterState s 0x54 a) ∧
    exec (.jeq a) s = .next (invalidRegisterState s 0x55 a) ∧
    exec (.jne a) s = .next (invalidRegisterState s 0x56 a) ∧
    exec (.ldi a b) s = .next (invalidRegisterState s 0x82 a) ∧
    exec (.mul a b) s = .next (invalidRegisterState s 0xA2 a) ∧
    exec (.cmp a b) s = .next (invalidRegisterState s 0xA7 a)) ∧
  (∀ (r : Fin 8) (b : Byte) (s : State), 8 ≤ b.toNat →
    exec (.mul (regByte r) b) s = .next (invalidRegisterState s 0xA2 b) ∧
    exec (.cmp (regByte r) b) s = .next (invalidRegisterState s 0xA7 b))

/-- R191, R193, R211, R212, and R246 point 7: the stack access of PUSH, POP, CALL and RET at or above MEM_SIZE, and
before it CALL's return address, raise MemoryFault of that address and change nothing else. -/
def Obligations.StackAccessBeyondMemoryFaults : Prop :=
  ∀ (r : Fin 8) (s : State),
    (s.cfg.memSize ≤ (s.sp - 1).toNat →
      exec (.push (regByte r)) s = .next (memoryFaultState s 0x45 (s.sp - 1).toNat)) ∧
    (s.cfg.memSize ≤ s.sp.toNat →
      exec (.pop (regByte r)) s = .next (memoryFaultState s 0x46 s.sp.toNat) ∧
      exec .ret s = .next (memoryFaultState s 0x11 s.sp.toNat)) ∧
    (s.cfg.memSize ≤ s.pc + 2 →
      exec (.call (regByte r)) s = .next (memoryFaultState s 0x50 (s.pc + 2))) ∧
    (s.pc + 2 < s.cfg.memSize → s.cfg.memSize ≤ (s.sp - 1).toNat →
      exec (.call (regByte r)) s = .next (memoryFaultState s 0x50 (s.sp - 1).toNat))

/-- R63 (an inference the spec marks as its own): with MEM_SIZE = 256 no stack access faults. -/
def Obligations.NoStackFaultInFullMemory : Prop :=
  ∀ (r : Fin 8) (s : State), s.cfg.memSize = 256 →
    (∃ t, exec (.push (regByte r)) s = .next t ∧ t.faultRec = s.faultRec) ∧
    (∃ t, exec (.pop (regByte r)) s = .next t ∧ t.faultRec = s.faultRec) ∧
    (∃ t, exec .ret s = .next t ∧ t.faultRec = s.faultRec) ∧
    (s.pc + 2 < 256 → ∃ t, exec (.call (regByte r)) s = .next t ∧ t.faultRec = s.faultRec)

/-! ## The twelve instructions: result and frame -/

/-- R130. -/
def Obligations.HltHalts : Prop :=
  ∀ s : State, ∃ t, exec .hlt s = .next t ∧ t.halted = true ∧ t.pc = s.pc + 1 ∧
    SameRegs s t ∧ SameMemory s t ∧ t.fl = s.fl ∧ t.outputs = s.outputs ∧
    t.cfg = s.cfg ∧ t.faultRec = s.faultRec ∧ t.diags = s.diags ∧ t.traces = s.traces

/-- R151. -/
def Obligations.LdiLoadsItsImmediate : Prop :=
  ∀ (r : Fin 8) (imm : Byte) (s : State), ∃ t, exec (.ldi (regByte r) imm) s = .next t ∧
    t.reg r = imm ∧ (∀ q : Fin 8, q ≠ r → t.reg q = s.reg q) ∧ t.pc = s.pc + 3 ∧
    SameMemory s t ∧ t.fl = s.fl ∧ t.outputs = s.outputs ∧ SameRest s t

/-- R153, R154. -/
def Obligations.PrnOutputsItsRegister : Prop :=
  ∀ (r : Fin 8) (s : State), ∃ t, exec (.prn (regByte r)) s = .next t ∧
    t.outputs = s.outputs ++ [s.reg r] ∧ t.pc = s.pc + 2 ∧
    SameRegs s t ∧ SameMemory s t ∧ t.fl = s.fl ∧ SameRest s t

/-- R172. -/
def Obligations.MulKeepsTheLowByteOfTheProduct : Prop :=
  ∀ (ra rb : Fin 8) (s : State), ∃ t, exec (.mul (regByte ra) (regByte rb)) s = .next t ∧
    (t.reg ra).toNat = ((s.reg ra).toNat * (s.reg rb).toNat) % 256 ∧
    (∀ q : Fin 8, q ≠ ra → t.reg q = s.reg q) ∧ t.pc = s.pc + 3 ∧
    SameMemory s t ∧ t.fl = s.fl ∧ t.outputs = s.outputs ∧ SameRest s t

/-- R174, R175. -/
def Obligations.CmpSetsExactlyOneFlag : Prop :=
  ∀ (ra rb : Fin 8) (s : State), ∃ t, exec (.cmp (regByte ra) (regByte rb)) s = .next t ∧
    (s.reg ra = s.reg rb → t.fl = 0x01) ∧
    ((s.reg ra).toNat > (s.reg rb).toNat → t.fl = 0x02) ∧
    ((s.reg ra).toNat < (s.reg rb).toNat → t.fl = 0x04) ∧
    t.pc = s.pc + 3 ∧ SameRegs s t ∧ SameMemory s t ∧ t.outputs = s.outputs ∧ SameRest s t

/-- R191: the address stored to is the decremented SP, and PUSH R7 stores the decremented SP. -/
def Obligations.PushStoresBelowTheStackPointer : Prop :=
  ∀ (r : Fin 8) (s : State), (s.sp - 1).toNat < s.cfg.memSize →
    ∃ t, exec (.push (regByte r)) s = .next t ∧
      t.sp = s.sp - 1 ∧ (∀ q : Fin 8, q ≠ 7 → t.reg q = s.reg q) ∧
      t.mem.read (s.sp - 1).toNat = (if r = 7 then s.sp - 1 else s.reg r) ∧
      (∀ a : Nat, a ≠ (s.sp - 1).toNat → t.mem.read a = s.mem.read a) ∧
      t.pc = s.pc + 2 ∧ t.fl = s.fl ∧ t.outputs = s.outputs ∧ SameRest s t

/-- R192, R193: POP R7 leaves the popped value plus one. -/
def Obligations.PopLoadsFromTheStackPointer : Prop :=
  ∀ (r : Fin 8) (s : State), s.sp.toNat < s.cfg.memSize →
    ∃ t, exec (.pop (regByte r)) s = .next t ∧
      (r ≠ 7 → t.reg r = s.mem.read s.sp.toNat ∧ t.sp = s.sp + 1) ∧
      (r = 7 → t.sp = s.mem.read s.sp.toNat + 1) ∧
      (∀ q : Fin 8, q ≠ r → q ≠ 7 → t.reg q = s.reg q) ∧
      SameMemory s t ∧ t.pc = s.pc + 2 ∧ t.fl = s.fl ∧ t.outputs = s.outputs ∧ SameRest s t

/-- R211: the return address is stored at the decremented SP, and CALL R7 jumps to the decremented SP. -/
def Obligations.CallPushesTheReturnAddress : Prop :=
  ∀ (r : Fin 8) (s : State), s.cfg.Legal → s.pc + 2 < s.cfg.memSize → (s.sp - 1).toNat < s.cfg.memSize →
    ∃ t, exec (.call (regByte r)) s = .next t ∧
      t.sp = s.sp - 1 ∧ (∀ q : Fin 8, q ≠ 7 → t.reg q = s.reg q) ∧
      (t.mem.read (s.sp - 1).toNat).toNat = s.pc + 2 ∧
      (∀ a : Nat, a ≠ (s.sp - 1).toNat → t.mem.read a = s.mem.read a) ∧
      t.pc = (if r = 7 then s.sp - 1 else s.reg r).toNat ∧
      t.fl = s.fl ∧ t.outputs = s.outputs ∧ SameRest s t

/-- R212. -/
def Obligations.RetPopsThePc : Prop :=
  ∀ s : State, s.sp.toNat < s.cfg.memSize →
    ∃ t, exec .ret s = .next t ∧ t.pc = (s.mem.read s.sp.toNat).toNat ∧
      t.sp = s.sp + 1 ∧ (∀ q : Fin 8, q ≠ 7 → t.reg q = s.reg q) ∧
      SameMemory s t ∧ t.fl = s.fl ∧ t.outputs = s.outputs ∧ SameRest s t

/-- R213. -/
def Obligations.JmpJumpsToItsRegister : Prop :=
  ∀ (r : Fin 8) (s : State), ∃ t, exec (.jmp (regByte r)) s = .next t ∧ t.pc = (s.reg r).toNat ∧
    SameRegs s t ∧ SameMemory s t ∧ t.fl = s.fl ∧ t.outputs = s.outputs ∧ SameRest s t

/-- R214: E is bit 0 of FL. -/
def Obligations.JeqJumpsWhenEqualIsSet : Prop :=
  ∀ (r : Fin 8) (s : State), ∃ t, exec (.jeq (regByte r)) s = .next t ∧
    t.pc = (if s.fl.getLsbD 0 = true then (s.reg r).toNat else s.pc + 2) ∧
    SameRegs s t ∧ SameMemory s t ∧ t.fl = s.fl ∧ t.outputs = s.outputs ∧ SameRest s t

/-- R215: E is bit 0 of FL. -/
def Obligations.JneJumpsWhenEqualIsClear : Prop :=
  ∀ (r : Fin 8) (s : State), ∃ t, exec (.jne (regByte r)) s = .next t ∧
    t.pc = (if s.fl.getLsbD 0 = false then (s.reg r).toNat else s.pc + 2) ∧
    SameRegs s t ∧ SameMemory s t ∧ t.fl = s.fl ∧ t.outputs = s.outputs ∧ SameRest s t

/-! ## Rules of the whole machine -/

/-- R43: only CMP writes FL, and it writes exactly one of 0x01, 0x02 and 0x04. -/
def Obligations.OnlyCmpWritesFlags : Prop :=
  ∀ s t : State, step s = .next t →
    (s.mem.read s.pc ≠ 0xA7 ∨ t.faultRec.faulted = true → t.fl = s.fl) ∧
    (s.mem.read s.pc = 0xA7 → t.faultRec.faulted = false → t.fl = 0x01 ∨ t.fl = 0x02 ∨ t.fl = 0x04)

/-- R46: a step halts the engine exactly when it executes HLT. -/
def Obligations.OnlyHltHalts : Prop :=
  ∀ s t : State, step s = .next t → (t.halted = true ↔ s.pc < s.cfg.memSize ∧ s.mem.read s.pc = 0x01)

/-- R61: a step changes no byte of memory but the one at the decremented SP, and that only by PUSH or CALL. -/
def Obligations.OnlyPushAndCallWriteMemory : Prop :=
  ∀ (s t : State) (a : Nat), step s = .next t → t.mem.read a ≠ s.mem.read a →
    s.mem.read s.pc ∈ [0x45, 0x50] ∧ a = (s.sp - 1).toNat

/-- R31: a step changes no register but the one LDI, MUL or POP names, and R7 by PUSH, POP, CALL and RET. -/
def Obligations.OnlyTheListedInstructionsWriteRegisters : Prop :=
  ∀ (s t : State) (r : Fin 8), step s = .next t → t.reg r ≠ s.reg r →
    (s.mem.read s.pc ∈ [0x82, 0xA2, 0x46] ∧ s.mem.read (s.pc + 1) = regByte r) ∨
    (r = 7 ∧ s.mem.read s.pc ∈ [0x45, 0x46, 0x50, 0x11])

/-- R154, R243, R258: a step adds at most one value to the output port, PRN's, and at most one record to the
diagnostic port, a lenient skip's; what was handed over stays. -/
def Obligations.PortsCarryOnlyTheirRecords : Prop :=
  ∀ s t : State, step s = .next t →
    (t.outputs = s.outputs ∨
      ∃ r : Fin 8, s.mem.read s.pc = 0x47 ∧ s.mem.read (s.pc + 1) = regByte r ∧
        t.outputs = s.outputs ++ [s.reg r]) ∧
    (t.diags = s.diags ∨
      (s.cfg.policy = .lenient ∧ s.mem.read s.pc ∉ assignedOpcodes ∧
        t.diags = s.diags ++ [⟨s.pc, s.mem.read s.pc⟩]))

/-- R5: none of the parameters changes while the engine runs. -/
def Obligations.ParametersNeverChange : Prop :=
  ∀ s t : State, step s = .next t → t.cfg = s.cfg

/-! ## The invariant -/

/-- R37, R39, R44, R47, R60, R245 and log entry 2: every step keeps the invariant, from every state that has it. -/
def Obligations.EveryStepKeepsTheInvariant : Prop :=
  ∀ s t : State, Inv s → step s = .next t → Inv t

/-- R290, I24: a construction is refused exactly for an illegal MEM_SIZE, and what it gives has the invariant and
runs. -/
def Obligations.ConstructionHasTheInvariant : Prop :=
  (∀ c : Config, hostConstruct c = none ↔ ¬(12 ≤ c.memSize ∧ c.memSize ≤ 256)) ∧
    (∀ (c : Config) (s : State), hostConstruct c = some s → Inv s ∧ Running s ∧ s.cfg = c) ∧
    Inv State.reset

/-- R69, R70: the load port keeps the invariant. -/
def Obligations.LoadingKeepsTheInvariant : Prop :=
  ∀ (writes : List (Int × Int)) (s : State), Inv s → Inv (hostLoad writes s).2

/-- R5, R37: at MEM_SIZE = 256 the pc fits its 9 bits, and so does every fault record's pc. -/
def Obligations.PcFitsNineBits : Prop :=
  ∀ s : State, Inv s → s.cfg.memSize = 256 →
    s.cfg.pcWidth = 9 ∧ s.pc ≤ 256 ∧ s.pc < 2 ^ s.cfg.pcWidth ∧ s.faultRec.pc < 2 ^ s.cfg.pcWidth

/-! ## Laws over several instructions -/

/-- R152 (an inference the spec marks as its own): LDI, LDI, MUL gives the product of the two immediates modulo
256. -/
def Obligations.LoadLoadMultiply : Prop :=
  ∀ (r q : Fin 8) (v w : Byte) (s : State), r ≠ q →
    ∃ s₁ s₂ s₃, exec (.ldi (regByte r) v) s = .next s₁ ∧ exec (.ldi (regByte q) w) s₁ = .next s₂ ∧
      exec (.mul (regByte r) (regByte q)) s₂ = .next s₃ ∧
      (s₃.reg r).toNat = (v.toNat * w.toNat) % 256 ∧ s₃.reg q = w ∧ s₃.pc = s.pc + 9

/-- R174, R214, R215: after a CMP, JEQ jumps exactly if the registers were equal, and JNE exactly if they were
not. -/
def Obligations.CompareThenBranch : Prop :=
  ∀ (a b r : Fin 8) (s : State),
    ∃ u, exec (.cmp (regByte a) (regByte b)) s = .next u ∧
      (∃ t, exec (.jeq (regByte r)) u = .next t ∧
        t.pc = if s.reg a = s.reg b then (s.reg r).toNat else s.pc + 5) ∧
      (∃ t, exec (.jne (regByte r)) u = .next t ∧
        t.pc = if s.reg a = s.reg b then s.pc + 5 else (s.reg r).toNat)

/-- R194 (a) (an inference the spec marks as its own): PUSH then POP on the same register is the identity on the
registers, R7 included, and the pushed value stays in memory. -/
def Obligations.PushThenPopIsIdentity : Prop :=
  ∀ (r : Fin 8) (s : State), s.cfg.memSize = 256 →
    ∃ u t, exec (.push (regByte r)) s = .next u ∧ exec (.pop (regByte r)) u = .next t ∧
      SameRegs s t ∧ t.pc = s.pc + 4 ∧
      t.mem.read (s.sp - 1).toNat = (if r = 7 then s.sp - 1 else s.reg r) ∧
      (∀ a : Nat, a ≠ (s.sp - 1).toNat → t.mem.read a = s.mem.read a)

/-- R194 (b) (an inference the spec marks as its own): pushes and pops are last-in first-out. -/
def Obligations.StackIsLastInFirstOut : Prop :=
  ∀ (r q x y : Fin 8) (s : State), s.cfg.memSize = 256 → r ≠ 7 → q ≠ 7 → x ≠ 7 → y ≠ 7 → x ≠ y →
    ∃ s₁ s₂ s₃ s₄, exec (.push (regByte r)) s = .next s₁ ∧ exec (.push (regByte q)) s₁ = .next s₂ ∧
      exec (.pop (regByte x)) s₂ = .next s₃ ∧ exec (.pop (regByte y)) s₃ = .next s₄ ∧
      s₄.reg x = s.reg q ∧ s₄.reg y = s.reg r ∧ s₄.sp = s.sp

/-- R217 (an inference the spec marks as its own): whatever a subroutine does that leaves SP and the byte at SP as
the CALL left them, its RET returns to the instruction after the CALL, with SP as before the CALL. -/
def Obligations.CallThenReturn : Prop :=
  ∀ (r : Fin 8) (s : State), s.cfg.memSize = 256 → s.pc + 2 < 256 →
    ∃ t, exec (.call (regByte r)) s = .next t ∧
      ∀ u : State, u.cfg.memSize = 256 → u.sp = t.sp → u.mem.read t.sp.toNat = t.mem.read t.sp.toNat →
        ∃ v, exec .ret u = .next v ∧ v.pc = s.pc + 2 ∧ v.sp = s.sp

/-- R210: a jump to an address at or above MEM_SIZE does not fault; the next opcode fetch does, with the target. -/
def Obligations.JumpBeyondMemoryFaultsAtTheFetch : Prop :=
  ∀ (r : Fin 8) (s : State), Running s → s.cfg.memSize ≤ (s.reg r).toNat →
    ∃ t, exec (.jmp (regByte r)) s = .next t ∧ t.pc = (s.reg r).toNat ∧ Running t ∧
      step t = .next { traced t with
        faultRec :=
          { faulted := true, cause := 1, pc := (s.reg r).toNat, opcodeValid := false, opcode := 0,
            info := (s.reg r).toNat } }

/-- R76, R297: the byte a PUSH writes is the opcode that a later fetch at its address reads. -/
def Obligations.PushedByteIsFetched : Prop :=
  ∀ (r : Fin 8) (i : Instr) (s u : State), Running s → r ≠ 7 → (s.sp - 1).toNat < s.cfg.memSize →
    encode i = [s.reg r] → exec (.push (regByte r)) s = .next u →
    step { u with pc := (s.sp - 1).toNat } = exec i (traced { u with pc := (s.sp - 1).toNat })

/-! ## The host's ports -/

/-- R34, R41, R44, R46, R47, R51, R60: the architectural state after construction with any parameters, and after
reset with this hardware's. -/
def Obligations.ResetLeavesTheStatedValues : Prop :=
  (∀ c : Config,
    (∀ a : Nat, (State.construct c).mem.read a = 0) ∧
    (∀ r : Fin 8, r ≠ 7 → (State.construct c).reg r = 0) ∧ (State.construct c).reg 7 = c.spInit ∧
    (State.construct c).pc = 0 ∧ (State.construct c).fl = 0x00 ∧ (State.construct c).halted = false ∧
    (State.construct c).faultRec =
      { faulted := false, cause := 0, pc := 0, opcodeValid := false, opcode := 0, info := 0 } ∧
    (State.construct c).cfg = c) ∧
  State.reset.cfg.memSize = 256 ∧ State.reset.reg 7 = 0xF4 ∧ State.reset.reg 0 = 0 ∧ State.reset.pc = 0

/-- R69, R70: write stores the value modulo 256 in one cell and changes nothing else, or answers LoadError and
changes nothing at all. -/
def Obligations.LoadPortWritesOneCell : Prop :=
  ∀ (address value : Int) (s : State),
    (0 ≤ address → address < (s.cfg.memSize : Int) →
      ∃ t, hostWrite address value s = (.ok, t) ∧
        ((t.mem.read address.toNat).toNat : Int) = value % 256 ∧
        (∀ a : Nat, a ≠ address.toNat → t.mem.read a = s.mem.read a) ∧ t = { s with mem := t.mem }) ∧
    (address < 0 ∨ (s.cfg.memSize : Int) ≤ address → hostWrite address value s = (.loadError, s))

/-- R72: a contiguous load puts its values into the cells from 0 on, as far as memory goes, and answers LoadError
exactly if there are more values than cells. -/
def Obligations.ContiguousLoadFillsFromZero : Prop :=
  ∀ (values : List Int) (s : State),
    ((hostLoadContiguous values s).1 = .loadError ↔ s.cfg.memSize < values.length) ∧
    (∀ (k : Nat) (v : Int), values[k]? = some v → k < s.cfg.memSize →
      (((hostLoadContiguous values s).2.mem.read k).toNat : Int) = v % 256) ∧
    (∀ a : Nat, values.length ≤ a ∨ s.cfg.memSize ≤ a →
      (hostLoadContiguous values s).2.mem.read a = s.mem.read a) ∧
    (hostLoadContiguous values s).2 = { s with mem := (hostLoadContiguous values s).2.mem }

/-- R132, R259: a run ends in one of three ways, each as its name says: halted, faulted with that record, or after
exactly the limit's steps with the engine neither. -/
def Obligations.RunEndsAsItAnswers : Prop :=
  ∀ (limit : Nat) (s t : State) (o : RunOutcome), hostRun limit s = (o, t) →
    (o = .halted → t.halted = true) ∧
    (∀ f : FaultRecord, o = .fault f → t.halted = false ∧ t.faultRec = f ∧ f.faulted = true) ∧
    (o = .stepLimit → Running t ∧ Host.Core.run Sys2Proof.core limit s = .next t)

/-- R262: a run stopped by its limit goes on from there in a later run, and a run that ended does not depend on how
much of its limit was left. -/
def Obligations.RunResumesAfterTheStepLimit : Prop :=
  ∀ (m n : Nat) (s t : State) (o : RunOutcome), hostRun m s = (o, t) →
    (o = .stepLimit → hostRun (m + n) s = hostRun n t) ∧ (o ≠ .stepLimit → hostRun (m + n) s = (o, t))

/-- R131, R259: a run of a halted or faulted engine returns at once and changes nothing. -/
def Obligations.RunOfAStoppedEngineReturnsAtOnce : Prop :=
  ∀ (limit : Nat) (s : State),
    (s.halted = true → hostRun limit s = (.halted, s)) ∧
    (s.halted = false → s.faultRec.faulted = true → hostRun limit s = (.fault s.faultRec, s))

/-- R295 (an inference the spec marks as its own): under lenient, an engine whose memory holds only 0x00 skips byte
by byte to the end of memory, one diagnostic each, and faults at MEM_SIZE; pc does not wrap. -/
def Obligations.EmptyMemoryRunsOffTheEnd : Prop :=
  ∀ s : State, Running s → s.cfg.policy = .lenient → (∀ a : Nat, s.mem.read a = 0) → s.pc ≤ s.cfg.memSize →
    ∃ t, hostRun (s.cfg.memSize - s.pc + 1) s =
        (.fault { faulted := true, cause := 1, pc := s.cfg.memSize, opcodeValid := false, opcode := 0,
                  info := s.cfg.memSize }, t) ∧
      t.pc = s.cfg.memSize ∧
      t.diags = s.diags ++ (List.range' s.pc (s.cfg.memSize - s.pc)).map (fun a => ⟨a, 0x00⟩) ∧
      SameRegs s t ∧ SameMemory s t ∧ t.fl = s.fl ∧ t.outputs = s.outputs
end

