-- ==== Sys2Proof/Laws/Decode.lean ====
section
/-! SUPPORT. What a lookup in the opcode table gives (30_encoding.md R95, R96). -/

namespace Sys2Proof

/-- A row found for an opcode stands in the table and has that opcode. -/
theorem lookupOpcode_some {op : Byte} {row : OpRow} (h : lookupOpcode op = some row) :
    row ∈ opTable ∧ row.opcode = op := by
  refine ⟨List.mem_of_find?_eq_some h, ?_⟩
  simpa using List.find?_some h

/-- No row is found exactly for an opcode that no row has. -/
theorem lookupOpcode_none {op : Byte} : lookupOpcode op = none ↔ ∀ row ∈ opTable, row.opcode ≠ op := by
  simp [lookupOpcode]

/-- No two rows of the table have the same opcode. -/
theorem opTable_distinct : opTable.Pairwise (fun a b => a.opcode ≠ b.opcode) := by decide

/-- Each row is the one its opcode finds. -/
theorem lookupOpcode_row : ∀ row ∈ opTable, lookupOpcode row.opcode = some row := by
  simp only [opTable, List.forall_mem_cons, List.not_mem_nil, false_imp_iff, implies_true, and_true]
  exact ⟨rfl, rfl, rfl, rfl, rfl, rfl, rfl, rfl, rfl, rfl, rfl, rfl⟩

end Sys2Proof
end

