-- ==== Sys2Proof/Laws/Memory.lean ====
section
/-! SUPPORT. The laws of memory as data: read after write, and that every write keeps the canonical form. -/

namespace Sys2Proof.Machine

@[simp] theorem Memory.read_nil (a : Nat) : Memory.read [] a = 0 := rfl

theorem Memory.read_insert (m : Memory) (a : Nat) (v : Byte) (b : Nat) (h : b = a → Memory.read m a = 0)
    (hm : ∀ c ∈ m, c.1 ≠ a) :
    (Memory.insert a v m).read b = if b = a then v else m.read b := by
  induction m with
  | nil => simp [Memory.insert, Memory.read, eq_comm]
  | cons c m ih =>
    obtain ⟨k, x⟩ := c
    have hk : k ≠ a := hm (k, x) (by simp)
    have hm' : ∀ c ∈ m, c.1 ≠ a := fun c hc => hm c (by simp [hc])
    have ih' := ih (fun e => by simpa [Memory.read, hk] using h e) hm'
    by_cases hlt : a < k
    · by_cases hb : b = a
      · simp [Memory.insert, hlt, Memory.read, hb]
      · simp [Memory.insert, hlt, Memory.read, hb, Ne.symm hb]
    · by_cases hb : b = a
      · subst hb
        simpa [Memory.insert, hlt, Memory.read, hk] using ih'
      · simp only [Memory.insert, hlt, if_false, Memory.read, hb] at ih' ⊢
        rw [ih']

theorem Memory.mem_erase_ne {m : Memory} {a : Nat} {c : Host.Cell} (h : c ∈ m.erase a) : c ∈ m ∧ c.1 ≠ a := by
  simpa [Memory.erase, List.mem_filter] using h

theorem Memory.read_absent {m : Memory} {a : Nat} (h : ∀ c ∈ m, c.1 ≠ a) : Memory.read m a = 0 := by
  induction m with
  | nil => rfl
  | cons c m ih =>
    obtain ⟨k, x⟩ := c
    have hk : k ≠ a := h (k, x) (by simp)
    simpa [Memory.read, hk] using ih (fun c hc => h c (by simp [hc]))

theorem Memory.read_erase (m : Memory) (a b : Nat) :
    (m.erase a).read b = if b = a then 0 else m.read b := by
  by_cases hb : b = a
  · subst hb
    simpa using Memory.read_absent (fun c hc => (Memory.mem_erase_ne hc).2)
  · rw [if_neg hb]
    induction m with
    | nil => rfl
    | cons c m ih =>
      obtain ⟨k, x⟩ := c
      by_cases hk : k = a
      · subst hk
        have : Memory.erase ((k, x) :: m) k = Memory.erase m k := by simp [Memory.erase]
        rw [this, ih, Memory.read, if_neg (Ne.symm hb)]
      · have : Memory.erase ((k, x) :: m) a = (k, x) :: Memory.erase m a := by simp [Memory.erase, hk]
        rw [this, Memory.read, Memory.read, ih]

/-- A read after a write gives the value written at its address and what it gave before elsewhere. It holds of
every list, canonical or not. -/
@[simp] theorem Memory.read_write (m : Memory) (a : Nat) (v : Byte) (b : Nat) :
    (m.write a v).read b = if b = a then v else m.read b := by
  unfold Memory.write
  split
  · rename_i h
    rw [Memory.read_erase, h]
  · rw [Memory.read_insert _ _ _ _ (fun _ => Memory.read_absent fun c hc => (Memory.mem_erase_ne hc).2)
      (fun c hc => (Memory.mem_erase_ne hc).2), Memory.read_erase]
    split <;> rfl

theorem Memory.wf_cons {k : Nat} {x : Byte} {m : Memory} :
    Memory.wf ((k, x) :: m) = true ↔ x ≠ 0 ∧ (∀ c ∈ m, k < c.1) ∧ Memory.wf m = true := by
  simp [Memory.wf, and_assoc]

theorem Memory.erase_wf {m : Memory} (a : Nat) (h : m.wf = true) : (m.erase a).wf = true := by
  induction m with
  | nil => rfl
  | cons c m ih =>
    obtain ⟨k, x⟩ := c
    obtain ⟨hx, hk, hm⟩ := Memory.wf_cons.1 h
    by_cases hka : k = a
    · have : Memory.erase ((k, x) :: m) a = Memory.erase m a := by simp [Memory.erase, hka]
      rw [this]; exact ih hm
    · have : Memory.erase ((k, x) :: m) a = (k, x) :: Memory.erase m a := by simp [Memory.erase, hka]
      rw [this]
      exact Memory.wf_cons.2 ⟨hx, fun c hc => hk c (Memory.mem_erase_ne hc).1, ih hm⟩

theorem Memory.mem_insert {m : Memory} {a : Nat} {v : Byte} {c : Host.Cell} :
    c ∈ Memory.insert a v m ↔ c = (a, v) ∨ c ∈ m := by
  induction m with
  | nil => simp [Memory.insert]
  | cons d m ih =>
    obtain ⟨k, x⟩ := d
    by_cases h : a < k <;> simp [Memory.insert, h, ih]
    tauto

theorem Memory.insert_wf {m : Memory} {a : Nat} {v : Byte} (hv : v ≠ 0) (ha : ∀ c ∈ m, c.1 ≠ a) (h : m.wf = true) :
    (Memory.insert a v m).wf = true := by
  induction m with
  | nil => simpa [Memory.insert, Memory.wf] using hv
  | cons c m ih =>
    obtain ⟨k, x⟩ := c
    obtain ⟨hx, hk, hm⟩ := Memory.wf_cons.1 h
    have hka : k ≠ a := ha (k, x) (by simp)
    by_cases hlt : a < k
    · simp only [Memory.insert, hlt, if_true]
      refine Memory.wf_cons.2 ⟨hv, fun c hc => ?_, h⟩
      rcases List.mem_cons.1 hc with rfl | hc
      · exact hlt
      · exact lt_trans hlt (hk c hc)
    · simp only [Memory.insert, hlt, if_false]
      refine Memory.wf_cons.2 ⟨hx, fun c hc => ?_, ih (fun c hc => ha c (by simp [hc])) hm⟩
      rcases Memory.mem_insert.1 hc with rfl | hc
      · simp only; omega
      · exact hk c hc

/-- Every write keeps the canonical form. -/
theorem Memory.write_wf {m : Memory} (a : Nat) (v : Byte) (h : m.wf = true) : (m.write a v).wf = true := by
  unfold Memory.write
  split
  · exact Memory.erase_wf a h
  · rename_i hv
    exact Memory.insert_wf hv (fun c hc => (Memory.mem_erase_ne hc).2) (Memory.erase_wf a h)

/-- A write lists no address but its own that was not listed before. -/
theorem Memory.mem_write {m : Memory} {a : Nat} {v : Byte} {c : Host.Cell} (h : c ∈ m.write a v) :
    c = (a, v) ∨ c ∈ m := by
  unfold Memory.write at h
  split at h
  · exact .inr (Memory.mem_erase_ne h).1
  · rcases Memory.mem_insert.1 h with h | h
    · exact .inl h
    · exact .inr (Memory.mem_erase_ne h).1

theorem Memory.read_lt {m : Memory} {k a : Nat} (h : ∀ c ∈ m, k < c.1) (ha : a ≤ k) : Memory.read m a = 0 :=
  Memory.read_absent fun c hc e => by have := h c hc; omega

/-- Canonical memories that read the same everywhere are equal data. -/
theorem Memory.ext_read {m n : Memory} (hm : m.wf = true) (hn : n.wf = true)
    (h : ∀ a : Nat, Memory.read m a = Memory.read n a) : m = n := by
  induction m generalizing n with
  | nil =>
    cases n with
    | nil => rfl
    | cons d n =>
      obtain ⟨k, x⟩ := d
      exact absurd (by simpa [Memory.read] using (h k).symm) (Memory.wf_cons.1 hn).1
  | cons c m ih =>
    obtain ⟨k, x⟩ := c
    obtain ⟨hx, hk, hm'⟩ := Memory.wf_cons.1 hm
    cases n with
    | nil => exact absurd (by simpa [Memory.read] using h k) hx
    | cons d n =>
      obtain ⟨l, y⟩ := d
      obtain ⟨hy, hl, hn'⟩ := Memory.wf_cons.1 hn
      have hkl : k = l := by
        rcases lt_trichotomy k l with hlt | he | hgt
        · refine absurd ?_ hx
          have := h k
          rwa [Memory.read, if_pos rfl, Memory.read, if_neg (by omega), Memory.read_lt hl (by omega)] at this
        · exact he
        · refine absurd ?_ hy
          have := (h l).symm
          rwa [Memory.read, if_pos rfl, Memory.read, if_neg (by omega), Memory.read_lt hk (by omega)] at this
      subst hkl
      have hxy : x = y := by simpa [Memory.read] using h k
      subst hxy
      congr 1
      refine ih hm' hn' fun a => ?_
      by_cases ha : k = a
      · rw [Memory.read_lt hk (by omega), Memory.read_lt hl (by omega)]
      · simpa [Memory.read, ha] using h a

end Sys2Proof.Machine
end

