-- ==== Sys2Proof/Laws/State.lean ====
section
/-! SUPPORT. One lemma per field per update of the state, and the register file's read-after-write law. -/

namespace Sys2Proof.Machine

@[simp] theorem State.setReg_cfg (s : State) (i : Fin 8) (v : Byte) :
    (s.setReg i v).cfg = s.cfg := rfl

@[simp] theorem State.setReg_mem (s : State) (i : Fin 8) (v : Byte) :
    (s.setReg i v).mem = s.mem := rfl

@[simp] theorem State.setReg_regs (s : State) (i : Fin 8) (v : Byte) :
    (s.setReg i v).regs = s.regs.set i.val v i.isLt := rfl

@[simp] theorem State.setReg_pc (s : State) (i : Fin 8) (v : Byte) :
    (s.setReg i v).pc = s.pc := rfl

@[simp] theorem State.setReg_fl (s : State) (i : Fin 8) (v : Byte) :
    (s.setReg i v).fl = s.fl := rfl

@[simp] theorem State.setReg_halted (s : State) (i : Fin 8) (v : Byte) :
    (s.setReg i v).halted = s.halted := rfl

@[simp] theorem State.setReg_faultRec (s : State) (i : Fin 8) (v : Byte) :
    (s.setReg i v).faultRec = s.faultRec := rfl

@[simp] theorem State.setReg_outputs (s : State) (i : Fin 8) (v : Byte) :
    (s.setReg i v).outputs = s.outputs := rfl

@[simp] theorem State.setReg_diags (s : State) (i : Fin 8) (v : Byte) :
    (s.setReg i v).diags = s.diags := rfl

@[simp] theorem State.setReg_traces (s : State) (i : Fin 8) (v : Byte) :
    (s.setReg i v).traces = s.traces := rfl

@[simp] theorem State.advance_cfg (s : State) (n : Nat) :
    (s.advance n).cfg = s.cfg := rfl

@[simp] theorem State.advance_mem (s : State) (n : Nat) :
    (s.advance n).mem = s.mem := rfl

@[simp] theorem State.advance_regs (s : State) (n : Nat) :
    (s.advance n).regs = s.regs := rfl

@[simp] theorem State.advance_pc (s : State) (n : Nat) :
    (s.advance n).pc = s.pc + n := rfl

@[simp] theorem State.advance_fl (s : State) (n : Nat) :
    (s.advance n).fl = s.fl := rfl

@[simp] theorem State.advance_halted (s : State) (n : Nat) :
    (s.advance n).halted = s.halted := rfl

@[simp] theorem State.advance_faultRec (s : State) (n : Nat) :
    (s.advance n).faultRec = s.faultRec := rfl

@[simp] theorem State.advance_outputs (s : State) (n : Nat) :
    (s.advance n).outputs = s.outputs := rfl

@[simp] theorem State.advance_diags (s : State) (n : Nat) :
    (s.advance n).diags = s.diags := rfl

@[simp] theorem State.advance_traces (s : State) (n : Nat) :
    (s.advance n).traces = s.traces := rfl

@[simp] theorem State.jumpTo_cfg (s : State) (v : Byte) :
    (s.jumpTo v).cfg = s.cfg := rfl

@[simp] theorem State.jumpTo_mem (s : State) (v : Byte) :
    (s.jumpTo v).mem = s.mem := rfl

@[simp] theorem State.jumpTo_regs (s : State) (v : Byte) :
    (s.jumpTo v).regs = s.regs := rfl

@[simp] theorem State.jumpTo_pc (s : State) (v : Byte) :
    (s.jumpTo v).pc = v.toNat := rfl

@[simp] theorem State.jumpTo_fl (s : State) (v : Byte) :
    (s.jumpTo v).fl = s.fl := rfl

@[simp] theorem State.jumpTo_halted (s : State) (v : Byte) :
    (s.jumpTo v).halted = s.halted := rfl

@[simp] theorem State.jumpTo_faultRec (s : State) (v : Byte) :
    (s.jumpTo v).faultRec = s.faultRec := rfl

@[simp] theorem State.jumpTo_outputs (s : State) (v : Byte) :
    (s.jumpTo v).outputs = s.outputs := rfl

@[simp] theorem State.jumpTo_diags (s : State) (v : Byte) :
    (s.jumpTo v).diags = s.diags := rfl

@[simp] theorem State.jumpTo_traces (s : State) (v : Byte) :
    (s.jumpTo v).traces = s.traces := rfl

@[simp] theorem State.emitOut_cfg (s : State) (v : Byte) :
    (s.emitOut v).cfg = s.cfg := rfl

@[simp] theorem State.emitOut_mem (s : State) (v : Byte) :
    (s.emitOut v).mem = s.mem := rfl

@[simp] theorem State.emitOut_regs (s : State) (v : Byte) :
    (s.emitOut v).regs = s.regs := rfl

@[simp] theorem State.emitOut_pc (s : State) (v : Byte) :
    (s.emitOut v).pc = s.pc := rfl

@[simp] theorem State.emitOut_fl (s : State) (v : Byte) :
    (s.emitOut v).fl = s.fl := rfl

@[simp] theorem State.emitOut_halted (s : State) (v : Byte) :
    (s.emitOut v).halted = s.halted := rfl

@[simp] theorem State.emitOut_faultRec (s : State) (v : Byte) :
    (s.emitOut v).faultRec = s.faultRec := rfl

@[simp] theorem State.emitOut_outputs (s : State) (v : Byte) :
    (s.emitOut v).outputs = s.outputs ++ [v] := rfl

@[simp] theorem State.emitOut_diags (s : State) (v : Byte) :
    (s.emitOut v).diags = s.diags := rfl

@[simp] theorem State.emitOut_traces (s : State) (v : Byte) :
    (s.emitOut v).traces = s.traces := rfl

@[simp] theorem State.emitDiag_cfg (s : State) (op : Byte) :
    (s.emitDiag op).cfg = s.cfg := rfl

@[simp] theorem State.emitDiag_mem (s : State) (op : Byte) :
    (s.emitDiag op).mem = s.mem := rfl

@[simp] theorem State.emitDiag_regs (s : State) (op : Byte) :
    (s.emitDiag op).regs = s.regs := rfl

@[simp] theorem State.emitDiag_pc (s : State) (op : Byte) :
    (s.emitDiag op).pc = s.pc := rfl

@[simp] theorem State.emitDiag_fl (s : State) (op : Byte) :
    (s.emitDiag op).fl = s.fl := rfl

@[simp] theorem State.emitDiag_halted (s : State) (op : Byte) :
    (s.emitDiag op).halted = s.halted := rfl

@[simp] theorem State.emitDiag_faultRec (s : State) (op : Byte) :
    (s.emitDiag op).faultRec = s.faultRec := rfl

@[simp] theorem State.emitDiag_outputs (s : State) (op : Byte) :
    (s.emitDiag op).outputs = s.outputs := rfl

@[simp] theorem State.emitDiag_diags (s : State) (op : Byte) :
    (s.emitDiag op).diags = s.diags ++ [⟨s.pc, op⟩] := rfl

@[simp] theorem State.emitDiag_traces (s : State) (op : Byte) :
    (s.emitDiag op).traces = s.traces := rfl

@[simp] theorem State.takeFault_cfg (s : State) (o : Option Byte) (e : Raise) :
    (s.takeFault o e).cfg = s.cfg := rfl

@[simp] theorem State.takeFault_mem (s : State) (o : Option Byte) (e : Raise) :
    (s.takeFault o e).mem = s.mem := rfl

@[simp] theorem State.takeFault_regs (s : State) (o : Option Byte) (e : Raise) :
    (s.takeFault o e).regs = s.regs := rfl

@[simp] theorem State.takeFault_pc (s : State) (o : Option Byte) (e : Raise) :
    (s.takeFault o e).pc = s.pc := rfl

@[simp] theorem State.takeFault_fl (s : State) (o : Option Byte) (e : Raise) :
    (s.takeFault o e).fl = s.fl := rfl

@[simp] theorem State.takeFault_halted (s : State) (o : Option Byte) (e : Raise) :
    (s.takeFault o e).halted = s.halted := rfl

@[simp] theorem State.takeFault_faultRec (s : State) (o : Option Byte) (e : Raise) :
    (s.takeFault o e).faultRec = ⟨true, e.cause.code, s.pc, o.isSome, o.getD 0, e.info⟩ := rfl

@[simp] theorem State.takeFault_outputs (s : State) (o : Option Byte) (e : Raise) :
    (s.takeFault o e).outputs = s.outputs := rfl

@[simp] theorem State.takeFault_diags (s : State) (o : Option Byte) (e : Raise) :
    (s.takeFault o e).diags = s.diags := rfl

@[simp] theorem State.takeFault_traces (s : State) (o : Option Byte) (e : Raise) :
    (s.takeFault o e).traces = s.traces := rfl

@[simp] theorem State.emitTrace_cfg (s : State) : s.emitTrace.cfg = s.cfg := by
  unfold State.emitTrace; split <;> rfl

@[simp] theorem State.emitTrace_mem (s : State) : s.emitTrace.mem = s.mem := by
  unfold State.emitTrace; split <;> rfl

@[simp] theorem State.emitTrace_regs (s : State) : s.emitTrace.regs = s.regs := by
  unfold State.emitTrace; split <;> rfl

@[simp] theorem State.emitTrace_pc (s : State) : s.emitTrace.pc = s.pc := by
  unfold State.emitTrace; split <;> rfl

@[simp] theorem State.emitTrace_fl (s : State) : s.emitTrace.fl = s.fl := by
  unfold State.emitTrace; split <;> rfl

@[simp] theorem State.emitTrace_halted (s : State) : s.emitTrace.halted = s.halted := by
  unfold State.emitTrace; split <;> rfl

@[simp] theorem State.emitTrace_faultRec (s : State) : s.emitTrace.faultRec = s.faultRec := by
  unfold State.emitTrace; split <;> rfl

@[simp] theorem State.emitTrace_outputs (s : State) : s.emitTrace.outputs = s.outputs := by
  unfold State.emitTrace; split <;> rfl

@[simp] theorem State.emitTrace_diags (s : State) : s.emitTrace.diags = s.diags := by
  unfold State.emitTrace; split <;> rfl

/-- Reading a register after writing one. -/
@[simp] theorem State.setReg_reg (s : State) (i : Fin 8) (v : Byte) (j : Fin 8) :
    (s.setReg i v).reg j = if j = i then v else s.reg j := by
  simp only [State.reg, State.setReg, Vector.getElem_set, Fin.ext_iff, eq_comm]

@[simp] theorem State.advance_reg (s : State) (n : Nat) (j : Fin 8) : (s.advance n).reg j = s.reg j := rfl

@[simp] theorem State.jumpTo_reg (s : State) (v : Byte) (j : Fin 8) : (s.jumpTo v).reg j = s.reg j := rfl

@[simp] theorem State.emitOut_reg (s : State) (v : Byte) (j : Fin 8) : (s.emitOut v).reg j = s.reg j := rfl

@[simp] theorem State.emitDiag_reg (s : State) (op : Byte) (j : Fin 8) : (s.emitDiag op).reg j = s.reg j := rfl

@[simp] theorem State.takeFault_reg (s : State) (o : Option Byte) (e : Raise) (j : Fin 8) :
    (s.takeFault o e).reg j = s.reg j := rfl

@[simp] theorem State.emitTrace_reg (s : State) (j : Fin 8) : s.emitTrace.reg j = s.reg j := by
  simp [State.reg]

/-- Two register files that read the same at every register are the same. -/
theorem regs_ext (s t : State) (h : ∀ r : Fin 8, t.reg r = s.reg r) : t.regs = s.regs := by
  apply Vector.ext
  intro i hi
  exact h ⟨i, hi⟩

/-- Every state is the record of its fields: an update that changes nothing. -/
theorem State.eta (s : State) : { s with pc := s.pc } = s := rfl

end Sys2Proof.Machine
end

