-- ==== Sys2Proof/Laws/Ops.lean ====
section
/-! SUPPORT. For each shared operation, one lemma for each of its outcomes; callers cite these. -/

namespace Sys2Proof.Machine

/-! ## Sequencing -/

@[simp] theorem ok_bind {α β : Type} (a : α) (f : α → Except Raise β) : (Except.ok a >>= f) = f a := rfl

@[simp] theorem error_bind {α β : Type} (e : Raise) (f : α → Except Raise β) :
    ((Except.error e : Except Raise α) >>= f) = .error e := rfl

@[simp] theorem pure_ok {α : Type} (a : α) : (pure a : Except Raise α) = .ok a := rfl

@[simp] theorem State.commit_ok (s : State) (op : Byte) (t : State) : s.commit op (.ok t) = .next t := rfl

@[simp] theorem State.commit_error (s : State) (op : Byte) (e : Raise) :
    s.commit op (.error e) = .next (s.takeFault (some op) e) := rfl

/-- The end of an instruction is a next state in every case: its own, or the fault entry of the state it began in. -/
theorem State.commit_cases {s : State} {op : Byte} {x : Except Raise State} {t : State}
    (h : s.commit op x = .next t) : x = .ok t ∨ ∃ e, x = .error e ∧ t = s.takeFault (some op) e := by
  cases x with
  | ok u => left; simpa [State.commit] using h
  | error e => right; exact ⟨e, rfl, by simpa [State.commit, eq_comm] using h⟩

/-! ## Operands -/

theorem regByte_toNat (r : Fin 8) : (regByte r).toNat = r.val := by
  simp only [regByte, BitVec.toNat_ofNat]
  have := r.isLt
  omega

@[simp] theorem regIndex_regByte (r : Fin 8) : regIndex (regByte r) = .ok r := by
  have h : (regByte r).toNat < 8 := by rw [regByte_toNat]; exact r.isLt
  simp only [regIndex, h, dif_pos, Except.ok.injEq]
  exact Fin.ext (regByte_toNat r)

theorem regIndex_bad {b : Byte} (h : 8 ≤ b.toNat) : regIndex b = .error (.invalidRegister b) := by
  simp [regIndex, Nat.not_lt.2 h]

/-- A register-index byte names a register or raises InvalidRegister, and there is no third case. -/
theorem regIndex_cases (b : Byte) :
    (∃ r : Fin 8, b = regByte r ∧ regIndex b = .ok r) ∨
      (8 ≤ b.toNat ∧ regIndex b = .error (.invalidRegister b)) := by
  by_cases h : b.toNat < 8
  · left
    refine ⟨⟨b.toNat, h⟩, ?_, by simp [regIndex, h]⟩
    apply BitVec.eq_of_toNat_eq
    rw [regByte_toNat]
  · right
    exact ⟨Nat.not_lt.1 h, regIndex_bad (Nat.not_lt.1 h)⟩

/-! ## Memory accesses and the stack pointer -/

theorem State.checkAddr_ok {s : State} {a : Nat} (h : a < s.cfg.memSize) : s.checkAddr a = .ok () := by
  simp [State.checkAddr, h]

theorem State.checkAddr_error {s : State} {a : Nat} (h : s.cfg.memSize ≤ a) :
    s.checkAddr a = .error (.memoryFault a) := by
  simp [State.checkAddr, Nat.not_lt.2 h]

theorem State.memRead_ok {s : State} {a : Nat} (h : a < s.cfg.memSize) : s.memRead a = .ok (s.mem.read a) := by
  simp [State.memRead, State.checkAddr_ok h]

theorem State.memRead_error {s : State} {a : Nat} (h : s.cfg.memSize ≤ a) :
    s.memRead a = .error (.memoryFault a) := by
  simp [State.memRead, State.checkAddr_error h]

theorem State.memWrite_ok {s : State} {a : Nat} (v : Byte) (h : a < s.cfg.memSize) :
    s.memWrite a v = .ok { s with mem := s.mem.write a v } := by
  simp [State.memWrite, State.checkAddr_ok h]

theorem State.memWrite_error {s : State} {a : Nat} (v : Byte) (h : s.cfg.memSize ≤ a) :
    s.memWrite a v = .error (.memoryFault a) := by
  simp [State.memWrite, State.checkAddr_error h]

theorem State.decSp_ok {s : State} (h : (s.sp - 1).toNat < s.cfg.memSize) :
    s.decSp = .ok (s.setReg spReg (s.sp - 1)) := by
  simp only [State.decSp, State.checkAddr_ok h, ok_bind, pure_ok]

theorem State.decSp_error {s : State} (h : s.cfg.memSize ≤ (s.sp - 1).toNat) :
    s.decSp = .error (.memoryFault (s.sp - 1).toNat) := by
  simp only [State.decSp, State.checkAddr_error h, error_bind]

theorem State.peek_eq (s : State) (a : Nat) : s.peek a = traceByte s a := rfl

/-! ## The trace record as the statements describe it -/

@[simp] theorem traced_cfg (s : State) : (traced s).cfg = s.cfg := rfl

@[simp] theorem traced_mem (s : State) : (traced s).mem = s.mem := rfl

@[simp] theorem traced_regs (s : State) : (traced s).regs = s.regs := rfl

@[simp] theorem traced_pc (s : State) : (traced s).pc = s.pc := rfl

@[simp] theorem traced_fl (s : State) : (traced s).fl = s.fl := rfl

@[simp] theorem traced_halted (s : State) : (traced s).halted = s.halted := rfl

@[simp] theorem traced_faultRec (s : State) : (traced s).faultRec = s.faultRec := rfl

@[simp] theorem traced_outputs (s : State) : (traced s).outputs = s.outputs := rfl

@[simp] theorem traced_diags (s : State) : (traced s).diags = s.diags := rfl

@[simp] theorem traced_reg (s : State) (j : Fin 8) : (traced s).reg j = s.reg j := rfl

/-! ## The trace record and the fetch -/

/-- The model's trace emission is the one the statements describe. -/
theorem State.emitTrace_eq (s : State) : s.emitTrace = traced s := by
  unfold State.emitTrace traced
  cases h : s.cfg.traceEn <;> simp [State.peek_eq]

theorem HoldsAt.cons {s : State} {a : Nat} {b : Byte} {bs : List Byte} (h : HoldsAt s a (b :: bs)) :
    a < s.cfg.memSize ∧ s.mem.read a = b ∧ HoldsAt s (a + 1) bs := by
  have h0 := h ⟨0, by simp⟩
  refine ⟨by simpa using h0.1, by simpa using h0.2, fun k => ?_⟩
  have hk := h ⟨k.val + 1, by simp⟩
  simpa [Nat.add_assoc, Nat.add_comm 1] using hk

theorem HoldsAt.nil (s : State) (a : Nat) : HoldsAt s a [] := fun k => k.elim0

theorem State.peek_of_lt {s : State} {a : Nat} (h : a < s.cfg.memSize) : s.peek a = some (s.mem.read a) := by
  simp [State.peek, h]

theorem State.peek_of_le {s : State} {a : Nat} (h : s.cfg.memSize ≤ a) : s.peek a = none := by
  simp [State.peek, Nat.not_lt.2 h]

/-- Bytes that memory holds at an address are the first ones fetched from there. -/
theorem State.bytesFrom_holds {s : State} {a : Nat} {bs : List Byte} (h : HoldsAt s a bs) {k : Nat}
    (hk : bs.length ≤ k) : s.bytesFrom k a = bs ++ s.bytesFrom (k - bs.length) (a + bs.length) := by
  induction bs generalizing a k with
  | nil => simp
  | cons b bs ih =>
    obtain ⟨hlt, hb, hbs⟩ := h.cons
    cases k with
    | zero => simp at hk
    | succ k =>
      have := ih hbs (k := k) (by simpa using hk)
      simp only [State.bytesFrom, State.peek_of_lt hlt, hb, this, List.cons_append, List.length_cons,
        Nat.add_sub_add_right, Nat.add_assoc, Nat.add_comm 1]

/-- The first bytes fetched from an address are bytes that memory holds there. -/
theorem State.bytesFrom_prefix {s : State} {k a : Nat} {bs rest : List Byte} (h : s.bytesFrom k a = bs ++ rest) :
    HoldsAt s a bs := by
  induction bs generalizing k a with
  | nil => exact HoldsAt.nil s a
  | cons b bs ih =>
    cases k with
    | zero => simp [State.bytesFrom] at h
    | succ k =>
      by_cases hlt : a < s.cfg.memSize
      · simp only [State.bytesFrom, State.peek_of_lt hlt, List.cons_append, List.cons.injEq] at h
        have := ih h.2
        intro j
        rcases j with ⟨_ | j, hj⟩
        · exact ⟨hlt, h.1⟩
        · have := this ⟨j, by simpa using hj⟩
          simpa [Nat.add_assoc, Nat.add_comm 1] using this
      · simp [State.bytesFrom, State.peek_of_le (Nat.not_lt.1 hlt)] at h

/-- What is fetched at pc: nothing, one, two or three bytes, as far as memory goes. -/
theorem State.fetched_cases (s : State) :
    (s.cfg.memSize ≤ s.pc ∧ s.fetched = []) ∨
    (s.pc < s.cfg.memSize ∧ s.cfg.memSize ≤ s.pc + 1 ∧ s.fetched = [s.mem.read s.pc]) ∨
    (s.pc + 1 < s.cfg.memSize ∧ s.cfg.memSize ≤ s.pc + 2 ∧ s.fetched = [s.mem.read s.pc, s.mem.read (s.pc + 1)]) ∨
    (s.pc + 2 < s.cfg.memSize ∧
      s.fetched = [s.mem.read s.pc, s.mem.read (s.pc + 1), s.mem.read (s.pc + 2)]) := by
  unfold State.fetched State.bytesFrom State.bytesFrom State.bytesFrom State.bytesFrom
  by_cases h0 : s.pc < s.cfg.memSize
  · by_cases h1 : s.pc + 1 < s.cfg.memSize
    · by_cases h2 : s.pc + 1 + 1 < s.cfg.memSize
      · simp [State.peek_of_lt h0, State.peek_of_lt h1, State.peek_of_lt h2]; omega
      · simp [State.peek_of_lt h0, State.peek_of_lt h1, State.peek_of_le (Nat.not_lt.1 h2)]; omega
    · simp [State.peek_of_lt h0, State.peek_of_le (Nat.not_lt.1 h1)]; omega
  · simp [State.peek_of_le (Nat.not_lt.1 h0)]; omega

/-- What a step fetches does not depend on the trace record. -/
@[simp] theorem State.emitTrace_bytesFrom (s : State) (k a : Nat) : s.emitTrace.bytesFrom k a = s.bytesFrom k a := by
  induction k generalizing a with
  | zero => rfl
  | succ k ih => simp [State.bytesFrom, State.peek, ih]

@[simp] theorem State.emitTrace_fetched (s : State) : s.emitTrace.fetched = s.fetched := by
  simp [State.fetched]

/-! ## The step -/

/-- The step of a running engine. -/
theorem step_running {s : State} (h : Running s) :
    step s = match decode s.fetched with
      | .instr i _ => exec i s.emitTrace
      | .reject r => .next (s.emitTrace.onReject r) := by
  rw [step, State.cycle, if_neg (by simp [h.1]), if_neg (by simp [h.2]), State.emitTrace_fetched]
  try rfl

/-- A step that answers a next state was taken by a running engine, and either executed the decoded instruction or
found none. -/
theorem step_cases {s t : State} (h : step s = .next t) :
    Running s ∧
      ((∃ i rest, decode s.fetched = .instr i rest ∧ exec i s.emitTrace = .next t) ∨
        (∃ r, decode s.fetched = .reject r ∧ t = s.emitTrace.onReject r)) := by
  by_cases hh : s.halted = true
  · simp [step, State.cycle, hh] at h
  by_cases hf : s.faultRec.faulted = true
  · simp [step, State.cycle, hh, hf] at h
  have hr : Running s := ⟨by simpa using hh, by simpa using hf⟩
  refine ⟨hr, ?_⟩
  rw [step_running hr] at h
  cases hd : decode s.fetched with
  | instr i rest => left; exact ⟨i, rest, rfl, by simpa [hd] using h⟩
  | reject r => right; exact ⟨r, rfl, by simpa [hd, eq_comm] using h⟩

end Sys2Proof.Machine
end

