-- ==== Sys2Proof/Laws/PerInstr.lean ====
section
/-! SUPPORT. Facts about every instruction as syntax, one lemma per constructor (LAWS.json names the families). -/

namespace Sys2Proof.Laws.OpcodeBits

/-- The first encoded byte is the instruction's opcode, and that opcode has a row in the table (30_encoding.md R95). -/
def Statement (i : Instr) : Prop := (encode i).head? = some i.opcode ∧ (lookupOpcode i.opcode).isSome = true

theorem hlt : Statement .hlt := ⟨rfl, rfl⟩
theorem ret : Statement .ret := ⟨rfl, rfl⟩
theorem push (ra : Byte) : Statement (.push ra) := ⟨rfl, rfl⟩
theorem pop (ra : Byte) : Statement (.pop ra) := ⟨rfl, rfl⟩
theorem prn (ra : Byte) : Statement (.prn ra) := ⟨rfl, rfl⟩
theorem call (ra : Byte) : Statement (.call ra) := ⟨rfl, rfl⟩
theorem jmp (ra : Byte) : Statement (.jmp ra) := ⟨rfl, rfl⟩
theorem jeq (ra : Byte) : Statement (.jeq ra) := ⟨rfl, rfl⟩
theorem jne (ra : Byte) : Statement (.jne ra) := ⟨rfl, rfl⟩
theorem ldi (ra imm : Byte) : Statement (.ldi ra imm) := ⟨rfl, rfl⟩
theorem mul (ra rb : Byte) : Statement (.mul ra rb) := ⟨rfl, rfl⟩
theorem cmp (ra rb : Byte) : Statement (.cmp ra rb) := ⟨rfl, rfl⟩

end Sys2Proof.Laws.OpcodeBits
end

