-- ==== Sys2Proof/Tests/Slice0.lean ====
section
/-! SUPPORT. Small tests with expected results from spec/95_test_vectors.md (V and W numbers), the smoke test of
WellFormed, and for every statement with hypotheses a witness that meets them. -/

namespace Sys2Proof.Tests

open Sys2Proof.Machine

/-! ## Decoding: words written out from the encoding column of 30_encoding.md R95 -/

theorem test_decode_f0 :
    decode [0b00000001] = .instr .hlt [] ∧ decode [0b00010001] = .instr .ret [] := by decide

theorem test_decode_f1r :
    decode [0b01000101, 0b00000010] = .instr (.push 2) [] ∧
    decode [0b01000110, 0b00000100] = .instr (.pop 4) [] ∧
    decode [0b01000111, 0b00000101] = .instr (.prn 5) [] ∧
    decode [0b01010000, 0b00000001] = .instr (.call 1) [] ∧
    decode [0b01010100, 0b00000011] = .instr (.jmp 3) [] ∧
    decode [0b01010101, 0b00000010] = .instr (.jeq 2) [] ∧
    decode [0b01010110, 0b00000111] = .instr (.jne 7) [] := by decide

theorem test_decode_f2 :
    decode [0b10000010, 0b00000000, 0b00001000] = .instr (.ldi 0 8) [] ∧
    decode [0b10100010, 0b00000000, 0b00000001] = .instr (.mul 0 1) [] ∧
    decode [0b10100111, 0b00000011, 0b00000010] = .instr (.cmp 3 2) [] := by decide

/-- Unassigned opcodes (V6, V7, R98) and missing operand bytes are rejected by name. -/
theorem test_decode_rejects :
    decode [0x00] = .reject (.unassigned 0x00) ∧ decode [0xC2, 1, 2] = .reject (.unassigned 0xC2) ∧
    decode [0xA0, 0, 1] = .reject (.unassigned 0xA0) ∧ decode [] = .reject .noOpcode ∧
    decode [0x47] = .reject (.noOperandA 0x47) ∧ decode [0x82, 0] = .reject (.noOperandB 0x82) := by decide

/-- A table word: the opcode is the low byte, operand_a the next, operand_b the third. -/
theorem test_decodeTableWord :
    decodeTableWord 24 0x080082 = some (.ldi 0 8) ∧ decodeTableWord 8 0x01 = some .hlt ∧
    decodeTableWord 16 0x0745 = some (.push 7) ∧ decodeTableWord 8 0xA2 = some (.mul 0 0) ∧
    decodeTableWord 8 0x00 = none := by decide

/-! ## WellFormed refuses an ill-formed term for each of its checks (30_encoding.md R93) -/

theorem test_wf_refuses :
    Instr.wf (.push 8) = false ∧ Instr.wf (.pop 9) = false ∧ Instr.wf (.prn 255) = false ∧
    Instr.wf (.call 8) = false ∧ Instr.wf (.jmp 128) = false ∧ Instr.wf (.jeq 8) = false ∧
    Instr.wf (.jne 8) = false ∧ Instr.wf (.ldi 8 0) = false ∧ Instr.wf (.mul 8 0) = false ∧
    Instr.wf (.mul 0 8) = false ∧ Instr.wf (.cmp 8 0) = false ∧ Instr.wf (.cmp 0 8) = false := by decide

theorem test_wf_accepts :
    Instr.wf .hlt = true ∧ Instr.wf .ret = true ∧ Instr.wf (.push 7) = true ∧ Instr.wf (.ldi 7 255) = true ∧
    Instr.wf (.cmp 7 7) = true := by decide

/-! ## One step each -/

/-- The reset state with bytes at an address, registers, pc and FL. -/
def start (bytes : List Byte) (pc : Nat) (regs : Vector Byte 8) (fl : Byte) : State :=
  { State.reset.storeBytes pc bytes with pc := pc, regs := regs, fl := fl }

/-- The registers at reset, but for three. -/
def regs0 (r0 r1 sp : Byte) : Vector Byte 8 := #v[r0, r1, 0, 0, 0, 0, 0, sp]

/-- A view of the state a step leads to. -/
def after {α : Type} (s : State) (view : State → α) : Option α :=
  match step s with
  | .next t => some (view t)
  | .fault _ => none
  | .refused _ => none

/-- A view of the fault record: cause, pc, opcode (if valid), info. -/
def faultView (s : State) : Nat × Nat × Option Byte × Nat :=
  (s.faultRec.cause.toNat, s.faultRec.pc, if s.faultRec.opcodeValid then some s.faultRec.opcode else none,
    s.faultRec.info)

/-- The reset state with `MEM_SIZE` = 64. -/
def small (bytes : List Byte) (pc : Nat) (regs : Vector Byte 8) : State :=
  { (State.construct { Config.reference with memSize := 64 }).storeBytes pc bytes with pc := pc, regs := regs }

/-- V2. -/
theorem test_hlt_at_end :
    after (start [0x01] 255 (regs0 0 0 0xF4) 0) (fun t => (t.halted, t.pc, t.faultRec.faulted)) =
      some (true, 256, false) := by decide

/-- V21. -/
theorem test_ldi_r7 :
    after (start [0x82, 0x07, 0x10] 0 (regs0 0 0 0xF4) 0) (fun t => (t.reg 7, t.pc)) = some (0x10, 3) := by decide

/-- V22, V23. -/
theorem test_ldi_faults :
    after (start [0x82, 0x08, 0x05] 0 (regs0 0 0 0xF4) 0) faultView = some (2, 0, some 0x82, 8) ∧
    after (start [0x82, 0x00] 254 (regs0 0 0 0xF4) 0) faultView = some (1, 254, some 0x82, 256) := by decide

/-- V26. -/
theorem test_prn_r7 :
    after (start [0x47, 0x07] 0 (regs0 0 0 0xF4) 0) (fun t => (t.outputs, t.pc)) = some ([244], 2) := by decide

/-- V28, V27. -/
theorem test_prn_faults :
    after (start [0x47, 0xFF] 0 (regs0 0 0 0xF4) 0) faultView = some (2, 0, some 0x47, 255) ∧
    after (start [0x47] 255 (regs0 0 0 0xF4) 0) faultView = some (1, 255, some 0x47, 256) := by decide

/-- V44, with FL kept (V53). -/
theorem test_mul_wraps :
    after (start [0xA2, 0x00, 0x01] 0 (regs0 255 255 0xF4) 0x04) (fun t => (t.reg 0, t.reg 1, t.pc, t.fl)) =
      some (1, 255, 3, 0x04) := by decide

/-- V49, V50. -/
theorem test_mul_r7 :
    after (start [0xA2, 0x00, 0x07] 0 (regs0 3 0 0xF4) 0) (fun t => t.reg 0) = some 0xDC ∧
    after (start [0xA2, 0x07, 0x07] 0 (regs0 0 0 0xF4) 0) (fun t => t.reg 7) = some 0x90 := by decide

/-- V65, V63: the compare is unsigned. -/
theorem test_cmp_unsigned :
    after (start [0xA7, 0x00, 0x01] 0 (regs0 0x80 0x7F 0xF4) 0) (fun t => (t.fl, t.pc)) = some (0x02, 3) ∧
    after (start [0xA7, 0x00, 0x01] 0 (regs0 0 255 0xF4) 0) (fun t => (t.fl, t.pc)) = some (0x04, 3) := by decide

/-- V66; V68: ra is checked first. -/
theorem test_cmp_equal_and_bad :
    after (start [0xA7, 0x00, 0x01] 0 (regs0 0 0 0xF4) 0x04) (fun t => t.fl) = some 0x01 ∧
    after (start [0xA7, 0xFF, 0x09] 0 (regs0 0 0 0xF4) 0) faultView = some (2, 0, some 0xA7, 255) := by decide

/-- V81. -/
theorem test_push_r7 :
    after (start [0x45, 0x07] 0 (regs0 0 0 0xF4) 0) (fun t => (t.sp, t.mem.read 0xF3, t.pc)) =
      some (0xF3, 0xF3, 2) := by decide

/-- V82, V87. -/
theorem test_push_wraps :
    after (start [0x45, 0x00] 0 (regs0 42 0 0x00) 0) (fun t => (t.sp, t.mem.read 0xFF)) = some (0xFF, 42) ∧
    after (small [0x45, 0x00] 3 (regs0 0 0 0x00)) (fun t => (faultView t, t.sp)) =
      some ((1, 3, some 0x45, 255), 0x00) := by decide

/-- V84 (M[F4] = 0x10). -/
theorem test_pop_r7 :
    after ((start [0x46, 0x07] 0 (regs0 0 0 0xF4) 0).storeBytes 0xF4 [0x10]) (fun t => (t.reg 7, t.mem.read 0xF4)) =
      some (0x11, 0x10) := by decide

/-- V85 (M[FF] = 9), V88. -/
theorem test_pop_wraps :
    after ((start [0x46, 0x00] 0 (regs0 0 0 0xFF) 0).storeBytes 0xFF [9]) (fun t => (t.reg 0, t.sp)) =
      some (9, 0x00) ∧
    after (small [0x46, 0x00] 0 (regs0 0 0 0x40)) faultView = some (1, 0, some 0x46, 64) := by decide

/-- V101, V103. -/
theorem test_call :
    after (start [0x50, 0x07] 0 (regs0 0 0 0xF4) 0) (fun t => (t.sp, t.mem.read 0xF3, t.pc)) =
      some (0xF3, 2, 0xF3) ∧
    after (start [0x50, 0x00] 253 (regs0 0 0 0xF4) 0) (fun t => (t.sp, t.mem.read 0xF3, t.pc)) =
      some (0xF3, 255, 0) := by decide

/-- V102, V123. -/
theorem test_call_faults :
    after (start [0x50, 0x00] 254 (regs0 0 0 0xF4) 0) (fun t => (faultView t, t.sp, t.pc)) =
      some ((1, 254, some 0x50, 256), 0xF4, 254) ∧
    after (start [0x50, 0x08] 254 (regs0 0 0 0xF4) 0) faultView = some (2, 254, some 0x50, 8) := by decide

/-- V104 (M[F3] = 8), V106. -/
theorem test_ret :
    after ((start [0x11] 0 (regs0 0 0 0xF3) 0).storeBytes 0xF3 [8]) (fun t => (t.pc, t.sp)) = some (8, 0xF4) ∧
    after (small [0x11] 0 (regs0 0 0 0x40)) faultView = some (1, 0, some 0x11, 64) := by decide

/-- V108: no fault at the JMP, with `MEM_SIZE` = 64. -/
theorem test_jmp_beyond :
    after (small [0x54, 0x00] 3 (regs0 200 0 0x34)) (fun t => (t.pc, t.faultRec.faulted)) = some (200, false) := by
  decide

/-- V109, V110 (with R1 for R2). -/
theorem test_jeq :
    after (start [0x55, 0x01] 10 (regs0 0 0x40 0xF4) 0x01) (fun t => t.pc) = some 0x40 ∧
    after (start [0x55, 0x01] 10 (regs0 0 0x40 0xF4) 0x02) (fun t => t.pc) = some 12 := by decide

/-- V114: the register is checked although the branch would not be taken. -/
theorem test_jeq_bad_register :
    after (start [0x55, 0x08] 0 (regs0 0 0 0xF4) 0x02) faultView = some (2, 0, some 0x55, 8) := by decide

/-- V111, V112. -/
theorem test_jne :
    after (start [0x56, 0x01] 0 (regs0 0 9 0xF4) 0x00) (fun t => t.pc) = some 9 ∧
    after (start [0x56, 0x01] 0 (regs0 0 9 0xF4) 0x01) (fun t => t.pc) = some 2 := by decide

/-- V4, V5. -/
theorem test_unassigned :
    after (start [] 5 (regs0 0 0 0xF4) 0) (fun t => (t.diags, t.pc)) = some ([⟨5, 0x00⟩], 6) ∧
    after { start [] 5 (regs0 0 0 0xF4) 0 with cfg := { Config.reference with policy := .strict } }
      (fun t => (faultView t, t.pc)) = some ((3, 5, some 0x00, 0), 5) := by decide

/-- V3, V120: with a = 0x09 at 255, the fetch of b comes first. -/
theorem test_fetch_faults :
    after (start [] 256 (regs0 0 0 0xF4) 0) faultView = some (1, 256, none, 256) ∧
    after (start [0xA7, 0x09] 254 (regs0 0 0 0xF4) 0) faultView = some (1, 254, some 0xA7, 256) := by decide

/-- The last trace record of W1: `Trace(11, 01, 00, 00, [48,09,00,00,00,00,00,F4])`. -/
theorem test_trace :
    after { start [0x01] 11 (regs0 0x48 0x09 0xF4) 0 with cfg := { Config.reference with traceEn := true } }
      (fun t => t.traces) = some [⟨11, some 0x01, some 0, some 0, #v[0x48, 9, 0, 0, 0, 0, 0, 0xF4]⟩] := by decide

/-- The host's fetch word runs as the first instruction after reset: LDI R3,0xFF (V20). -/
theorem test_withFetchWord :
    after (State.reset.withFetchWord 24 0xFF0382) (fun t => (t.reg 3, t.pc)) = some (0xFF, 3) := by decide

/-- W10. -/
theorem test_load_port :
    (hostWrite 5 0x1FF State.reset).2.mem = [(5, 0xFF)] ∧ (hostWrite 6 256 State.reset).2.mem = [] ∧
    (hostWrite 7 (-1) State.reset).2.mem = [(7, 0xFF)] ∧ (hostWrite 255 7 State.reset).1 = .ok ∧
    hostWrite 256 7 State.reset = (.loadError, State.reset) ∧
    hostWrite (-1) 7 State.reset = (.loadError, State.reset) := by decide

/-- W9: the default SP at 256, 64 and 12. -/
theorem test_default_sp :
    Config.defaultSpInit 256 = 0xF4 ∧ Config.defaultSpInit 64 = 0x34 ∧ Config.defaultSpInit 12 = 0x00 := by decide

/-! ## Witnesses: concrete states and operands that meet the hypotheses of a statement -/

/-- A running state with LDI R0,8 at address 0. -/
def ldiState : State := start [0x82, 0x00, 0x08] 0 (regs0 0 0 0xF4) 0

/-- Its instruction is at pc, and it steps. -/
theorem witness_StepRunsTheInstructionAtPc :
    Running ldiState ∧ HoldsAt ldiState ldiState.pc (encode (.ldi 0 8)) := by decide

theorem witness_OpcodeBitsFiveAndFour : encode (.mul 0 1) = 0xA2 :: [0, 1] := rfl

theorem witness_EveryStepEmitsItsTraceRecord :
    (∃ t, Running ldiState ∧ step ldiState = .next t ∧ ldiState.cfg.traceEn = false) ∧
    (∃ s t, Running s ∧ step s = .next t ∧ s.cfg.traceEn = true) :=
  ⟨⟨_, by decide, rfl, rfl⟩,
    ⟨{ ldiState with cfg := { Config.reference with traceEn := true } }, _, by decide, rfl, rfl⟩⟩

theorem witness_TraceChangesNoRun :
    SameButTrace ldiState { ldiState with cfg := { ldiState.cfg with traceEn := true } } := rfl

theorem witness_StepsExactlyWhileRunning :
    Running ldiState ∧ { ldiState with halted := true }.halted = true ∧
    (∃ s : State, s.halted = false ∧ s.faultRec.faulted = true) :=
  ⟨by decide, rfl, { ldiState with faultRec := { FaultRecord.clear with faulted := true } }, rfl, rfl⟩

theorem witness_OpcodeFetchBeyondMemoryFaults :
    Running { ldiState with pc := 256 } ∧ { ldiState with pc := 256 }.cfg.memSize ≤ 256 := by decide

theorem witness_OperandFetchBeyondMemoryFaults :
    (∃ s : State, Running s ∧ HoldsAt s s.pc [0x47] ∧ s.cfg.memSize ≤ s.pc + 1) ∧
    (∃ s : State, Running s ∧ HoldsAt s s.pc [0x82] ∧ s.pc + 1 < s.cfg.memSize ∧ s.cfg.memSize ≤ s.pc + 2) :=
  ⟨⟨start [0x47] 255 (regs0 0 0 0xF4) 0, by decide⟩, ⟨start [0x82] 254 (regs0 0 0 0xF4) 0, by decide⟩⟩

theorem witness_LenientSkipsOneByte :
    ∃ s : State, Running s ∧ HoldsAt s s.pc [0x00] ∧ (0x00 : Byte) ∉ assignedOpcodes ∧ s.cfg.policy = .lenient :=
  ⟨start [] 255 (regs0 0 0 0xF4) 0, by decide⟩

/-- The reset state under strict, with an opcode that has bits 7:6 = 0b11. -/
theorem witness_StrictRaisesUnknownInstruction :
    ∃ s : State, Running s ∧ HoldsAt s s.pc [0xC0] ∧ (0xC0 : Byte) ∉ assignedOpcodes ∧ s.cfg.policy = .strict :=
  ⟨{ start [0xC0] 255 (regs0 0 0 0xF4) 0 with cfg := { Config.reference with policy := .strict } }, by decide⟩

/-- A step that completes and one that faults: the hypotheses of the statements about every step, for each clause. -/
theorem witness_StepWritesPcByTheTable :
    (∃ s t, Running s ∧ step s = .next t ∧ t.faultRec.faulted = false ∧ s.mem.read s.pc = 0x55 ∧
      s.mem.read (s.pc + 1) = regByte 7) ∧
    (∃ s t, Running s ∧ step s = .next t ∧ t.faultRec.faulted = true) ∧
    (∃ s t, Running s ∧ step s = .next t ∧ t.faultRec.faulted = false ∧ s.mem.read s.pc ∉ assignedOpcodes) :=
  ⟨⟨start [0x55, 0x07] 0 (regs0 0 0 0xF4) 1, _, by decide, rfl, by decide, by decide, by decide⟩,
    ⟨start [0x47, 0x08] 0 (regs0 0 0 0xF4) 0, _, by decide, rfl, by decide⟩,
    ⟨start [] 0 (regs0 0 0 0xF4) 0, _, by decide, rfl, by decide, by decide⟩⟩

theorem witness_FaultsArePrecise :
    (∃ s t, Running s ∧ step s = .next t ∧ t.faultRec.faulted = true ∧ s.pc < s.cfg.memSize) ∧
    (∃ s t, Running s ∧ step s = .next t ∧ t.faultRec.faulted = true ∧ s.cfg.memSize ≤ s.pc) :=
  ⟨⟨start [0x47] 255 (regs0 0 0 0xF4) 0, _, by decide, rfl, by decide, by decide⟩,
    ⟨start [] 256 (regs0 0 0 0xF4) 0, _, by decide, rfl, by decide, by decide⟩⟩

/-- A fault of each cause: 1, 2 and 3. -/
theorem witness_FaultsOnlyForTheListedCauses :
    (∃ s t, Running s ∧ step s = .next t ∧ t.faultRec.faulted = true ∧ t.faultRec.cause = 1) ∧
    (∃ s t, Running s ∧ step s = .next t ∧ t.faultRec.faulted = true ∧ t.faultRec.cause = 2) ∧
    (∃ s t, Running s ∧ step s = .next t ∧ t.faultRec.faulted = true ∧ t.faultRec.cause = 3) :=
  ⟨⟨start [0x50, 0x00] 254 (regs0 0 0 0xF4) 0, _, by decide, rfl, by decide, by decide⟩,
    ⟨start [0xA2, 0x07, 0x08] 0 (regs0 0 0 0xF4) 0, _, by decide, rfl, by decide, by decide⟩,
    ⟨{ start [] 0 (regs0 0 0 0xF4) 0 with cfg := { Config.reference with policy := .strict } }, _, by decide, rfl,
      by decide, by decide⟩⟩

/-- The least and the greatest register byte that names no register. -/
theorem witness_InvalidRegisterIsRaised : 8 ≤ (0x08 : Byte).toNat ∧ 8 ≤ (0xFF : Byte).toNat := by decide

/-- Each clause at the first address beyond a memory of 64 cells, and the last one of 256. -/
theorem witness_StackAccessBeyondMemoryFaults :
    (∃ s : State, s.cfg.memSize ≤ (s.sp - 1).toNat) ∧ (∃ s : State, s.cfg.memSize ≤ s.sp.toNat) ∧
    (∃ s : State, s.cfg.memSize ≤ s.pc + 2) ∧
    (∃ s : State, s.pc + 2 < s.cfg.memSize ∧ s.cfg.memSize ≤ (s.sp - 1).toNat) :=
  ⟨⟨small [] 0 (regs0 0 0 0x41), by decide⟩, ⟨small [] 0 (regs0 0 0 0x40), by decide⟩,
    ⟨start [] 254 (regs0 0 0 0xF4) 0, by decide⟩, ⟨small [] 61 (regs0 0 0 0x41), by decide⟩⟩

theorem witness_NoStackFaultInFullMemory : ldiState.cfg.memSize = 256 ∧ ldiState.pc + 2 < 256 := by decide

theorem witness_CmpSetsExactlyOneFlag :
    (∃ s : State, s.reg 0 = s.reg 1) ∧ (∃ s : State, (s.reg 0).toNat > (s.reg 1).toNat) ∧
    (∃ s : State, (s.reg 0).toNat < (s.reg 1).toNat) :=
  ⟨⟨start [] 0 (regs0 5 5 0) 0, by decide⟩, ⟨start [] 0 (regs0 6 5 0) 0, by decide⟩,
    ⟨start [] 0 (regs0 5 6 0) 0, by decide⟩⟩

/-- SP at the two ends: the decremented SP is 0xFF, the last cell, and 63, the last of 64 cells. -/
theorem witness_PushStoresBelowTheStackPointer :
    (∃ s : State, s.sp = 0 ∧ (s.sp - 1).toNat < s.cfg.memSize) ∧
    (∃ s : State, s.cfg.memSize = 64 ∧ s.sp = 64 ∧ (s.sp - 1).toNat < s.cfg.memSize) :=
  ⟨⟨start [] 0 (regs0 0 0 0) 0, by decide⟩, ⟨small [] 0 (regs0 0 0 64), by decide⟩⟩

theorem witness_PopLoadsFromTheStackPointer :
    ∃ s : State, s.cfg.memSize = 64 ∧ s.sp = 63 ∧ s.sp.toNat < s.cfg.memSize :=
  ⟨small [] 0 (regs0 0 0 63), by decide⟩

/-- CALL at 253, the last address from which the return address is inside memory. -/
theorem witness_CallPushesTheReturnAddress :
    ∃ s : State, s.cfg.Legal ∧ s.pc = 253 ∧ s.pc + 2 < s.cfg.memSize ∧ (s.sp - 1).toNat < s.cfg.memSize :=
  ⟨start [] 253 (regs0 0 0 0) 0, by decide⟩

theorem witness_RetPopsThePc : ∃ s : State, s.sp = 0xFF ∧ s.sp.toNat < s.cfg.memSize :=
  ⟨start [] 0 (regs0 0 0 0xFF) 0, by decide⟩

theorem witness_OnlyCmpWritesFlags :
    (∃ s t, step s = .next t ∧ s.mem.read s.pc ≠ 0xA7) ∧
    (∃ s t, step s = .next t ∧ s.mem.read s.pc = 0xA7 ∧ t.faultRec.faulted = false) ∧
    (∃ s t, step s = .next t ∧ s.mem.read s.pc = 0xA7 ∧ t.faultRec.faulted = true) :=
  ⟨⟨ldiState, _, rfl, by decide⟩, ⟨start [0xA7, 0, 1] 0 (regs0 1 2 0xF4) 0, _, rfl, by decide, by decide⟩,
    ⟨start [0xA7, 0] 254 (regs0 1 2 0xF4) 0, _, rfl, by decide, by decide⟩⟩

theorem witness_OnlyHltHalts : ∃ t, step (start [0x01] 0 (regs0 0 0 0xF4) 0) = .next t := ⟨_, rfl⟩

theorem witness_OnlyPushAndCallWriteMemory :
    ∃ s t, step s = .next t ∧ t.mem.read 0xF3 ≠ s.mem.read 0xF3 :=
  ⟨start [0x45, 0x00] 0 (regs0 1 0 0xF4) 0, _, rfl, by decide⟩

/-- One case for each disjunct: the named register of LDI, and R7 by RET. -/
theorem witness_OnlyTheListedInstructionsWriteRegisters :
    (∃ t, step ldiState = .next t ∧ t.reg 0 ≠ ldiState.reg 0) ∧
    (∃ s t, step s = .next t ∧ t.reg 7 ≠ s.reg 7) :=
  ⟨⟨_, rfl, by decide⟩, ⟨start [0x11] 0 (regs0 0 0 0xF4) 0, _, rfl, by decide⟩⟩

theorem witness_PortsCarryOnlyTheirRecords :
    (∃ t, step (start [0x47, 0x00] 0 (regs0 72 0 0xF4) 0) = .next t) ∧
    (∃ t, step (start [] 0 (regs0 0 0 0xF4) 0) = .next t) := ⟨⟨_, rfl⟩, ⟨_, rfl⟩⟩

theorem witness_ParametersNeverChange : ∃ t, step ldiState = .next t := ⟨_, rfl⟩

/-- A state in the middle of a run has the invariant: program loaded, a flag set, one output, the stack in use. -/
theorem ldiState_inv : Inv { ldiState with fl := 0x02, outputs := [72] } where
  params := by decide
  memCanonical := by decide
  memInside := by decide
  pcRange := by decide
  flags := by decide
  record := .inl rfl
  oneEnd := by decide
  quietDiag := by decide
  quietTrace := by decide

theorem witness_EveryStepKeepsTheInvariant : ∃ s t, Inv s ∧ step s = .next t := ⟨_, _, ldiState_inv, rfl⟩

/-- A legal construction at each end of the range, and an illegal one beyond each. -/
theorem witness_ConstructionHasTheInvariant :
    (∃ s, hostConstruct { Config.reference with memSize := 12 } = some s) ∧
    (∃ s, hostConstruct { Config.reference with memSize := 256 } = some s) ∧
    hostConstruct { Config.reference with memSize := 11 } = none ∧
    hostConstruct { Config.reference with memSize := 257 } = none := ⟨⟨_, rfl⟩, ⟨_, rfl⟩, rfl, rfl⟩

theorem witness_LoadingKeepsTheInvariant : ∃ s, Inv s := ⟨_, ldiState_inv⟩

theorem witness_PcFitsNineBits : ∃ s, Inv s ∧ s.cfg.memSize = 256 := ⟨_, ldiState_inv, rfl⟩

theorem witness_LoadLoadMultiply : (0 : Fin 8) ≠ 1 := by decide

theorem witness_PushThenPopIsIdentity : ldiState.cfg.memSize = 256 := rfl

theorem witness_StackIsLastInFirstOut :
    ldiState.cfg.memSize = 256 ∧ (0 : Fin 8) ≠ 7 ∧ (1 : Fin 8) ≠ 7 ∧ (0 : Fin 8) ≠ 1 := by decide

/-- Both levels of hypotheses: of the CALL, and of the state its RET runs in. -/
theorem witness_CallThenReturn :
    ldiState.cfg.memSize = 256 ∧ ldiState.pc + 2 < 256 ∧
    ∃ t u : State, exec (.call (regByte 1)) ldiState = .next t ∧ u.cfg.memSize = 256 ∧ u.sp = t.sp ∧
      u.mem.read t.sp.toNat = t.mem.read t.sp.toNat := ⟨by decide, by decide, _, _, rfl, rfl, rfl, rfl⟩

theorem witness_JumpBeyondMemoryFaultsAtTheFetch :
    ∃ s : State, Running s ∧ s.cfg.memSize ≤ (s.reg 0).toNat := ⟨small [] 3 (regs0 64 0 0x34), by decide⟩

/-- R0 holds the opcode of HLT. -/
theorem witness_PushedByteIsFetched :
    ∃ s u : State, Running s ∧ (0 : Fin 8) ≠ 7 ∧ (s.sp - 1).toNat < s.cfg.memSize ∧ encode .hlt = [s.reg 0] ∧
      exec (.push (regByte 0)) s = .next u :=
  ⟨start [] 0 (regs0 0x01 0 0xF4) 0, _, by decide, by decide, by decide, by decide, rfl⟩

/-- Both ends of memory, and the addresses beyond them. -/
theorem witness_LoadPortWritesOneCell :
    (∃ s : State, (0 : Int) ≤ 0 ∧ (0 : Int) < (s.cfg.memSize : Int)) ∧
    (∃ s : State, (0 : Int) ≤ 255 ∧ (255 : Int) < (s.cfg.memSize : Int)) ∧
    (∃ s : State, (s.cfg.memSize : Int) ≤ 256) ∧ (-1 : Int) < 0 :=
  ⟨⟨State.reset, by decide⟩, ⟨State.reset, by decide⟩, ⟨State.reset, by decide⟩, by decide⟩

theorem witness_ContiguousLoadFillsFromZero :
    ([1, 2] : List Int)[1]? = some 2 ∧ 1 < State.reset.cfg.memSize ∧ ([1, 2] : List Int).length ≤ 2 := by decide

/-- A run that halts, one that faults and one that the limit stops. -/
theorem witness_RunEndsAsItAnswers :
    (∃ t, hostRun 1 (start [0x01] 0 (regs0 0 0 0xF4) 0) = (.halted, t)) ∧
    (∃ f t, hostRun 1 (start [0x47, 0x08] 0 (regs0 0 0 0xF4) 0) = (.fault f, t)) ∧
    (∃ t, hostRun 1 ldiState = (.stepLimit, t)) := ⟨⟨_, rfl⟩, ⟨_, _, rfl⟩, ⟨_, rfl⟩⟩

theorem witness_RunResumesAfterTheStepLimit :
    (∃ t, hostRun 1 ldiState = (.stepLimit, t)) ∧
    (∃ t, hostRun 1 (start [0x01] 0 (regs0 0 0 0xF4) 0) = (.halted, t)) := ⟨⟨_, rfl⟩, ⟨_, rfl⟩⟩

theorem witness_RunOfAStoppedEngineReturnsAtOnce :
    (∃ s : State, s.halted = true) ∧ (∃ s : State, s.halted = false ∧ s.faultRec.faulted = true) :=
  ⟨⟨{ ldiState with halted := true }, rfl⟩,
    ⟨{ ldiState with faultRec := { FaultRecord.clear with faulted := true } }, rfl, rfl⟩⟩

/-- At both ends: pc at 0 and pc at `MEM_SIZE`. -/
theorem witness_EmptyMemoryRunsOffTheEnd :
    (∃ s : State, Running s ∧ s.cfg.policy = .lenient ∧ (∀ a : Nat, s.mem.read a = 0) ∧ s.pc = 0) ∧
    (∃ s : State, Running s ∧ s.cfg.policy = .lenient ∧ (∀ a : Nat, s.mem.read a = 0) ∧ s.pc = s.cfg.memSize) :=
  ⟨⟨State.reset, by decide, rfl, fun _ => rfl, rfl⟩,
    ⟨{ State.reset with pc := 256 }, by decide, rfl, fun _ => rfl, rfl⟩⟩

end Sys2Proof.Tests
end

/-! # What a completed instruction and a step can do, and the statements of 00_scope.md -/

namespace Sys2Proof.Machine

/-! ## The write of one byte, as the state update that a `memWrite` makes (`State.memWrite_eq_ok`) -/

/-- One byte of memory written, nothing else changed (00_scope.md R10). -/
def State.store (s : State) (a : Nat) (v : Byte) : State := { s with mem := s.mem.write a v }

@[simp] theorem State.store_cfg (s : State) (a : Nat) (v : Byte) :
    (s.store a v).cfg = s.cfg := rfl

@[simp] theorem State.store_mem (s : State) (a : Nat) (v : Byte) :
    (s.store a v).mem = s.mem.write a v := rfl

@[simp] theorem State.store_regs (s : State) (a : Nat) (v : Byte) :
    (s.store a v).regs = s.regs := rfl

@[simp] theorem State.store_pc (s : State) (a : Nat) (v : Byte) :
    (s.store a v).pc = s.pc := rfl

@[simp] theorem State.store_fl (s : State) (a : Nat) (v : Byte) :
    (s.store a v).fl = s.fl := rfl

@[simp] theorem State.store_halted (s : State) (a : Nat) (v : Byte) :
    (s.store a v).halted = s.halted := rfl

@[simp] theorem State.store_faultRec (s : State) (a : Nat) (v : Byte) :
    (s.store a v).faultRec = s.faultRec := rfl

@[simp] theorem State.store_outputs (s : State) (a : Nat) (v : Byte) :
    (s.store a v).outputs = s.outputs := rfl

@[simp] theorem State.store_diags (s : State) (a : Nat) (v : Byte) :
    (s.store a v).diags = s.diags := rfl

@[simp] theorem State.store_traces (s : State) (a : Nat) (v : Byte) :
    (s.store a v).traces = s.traces := rfl

@[simp] theorem State.store_reg (s : State) (a : Nat) (v : Byte) (j : Fin 8) :
    (s.store a v).reg j = s.reg j := rfl

/-! ## Inversion of the shared operations: when one completes, and with what -/

theorem bind_eq_ok {α β : Type} {x : Except Raise α} {f : α → Except Raise β} {b : β} :
    (x >>= f) = .ok b ↔ ∃ a, x = .ok a ∧ f a = .ok b := by
  cases x <;> simp

theorem regIndex_eq_ok {b : Byte} {r : Fin 8} : regIndex b = .ok r ↔ b = regByte r := by
  constructor
  · intro h
    rcases regIndex_cases b with ⟨q, hq, hok⟩ | ⟨-, herr⟩
    · rw [hok, Except.ok.injEq] at h
      rw [hq, h]
    · simp [herr] at h
  · rintro rfl
    exact regIndex_regByte r

theorem State.checkAddr_eq_ok {s : State} {a : Nat} {u : Unit} :
    s.checkAddr a = .ok u ↔ a < s.cfg.memSize := by
  simp [State.checkAddr]

theorem State.memRead_eq_ok {s : State} {a : Nat} {v : Byte} :
    s.memRead a = .ok v ↔ a < s.cfg.memSize ∧ v = s.mem.read a := by
  simp [State.memRead, bind_eq_ok, State.checkAddr_eq_ok, eq_comm (a := v)]

theorem State.memWrite_eq_ok {s t : State} {a : Nat} {v : Byte} :
    s.memWrite a v = .ok t ↔ a < s.cfg.memSize ∧ t = s.store a v := by
  simp [State.memWrite, State.store, bind_eq_ok, State.checkAddr_eq_ok, eq_comm (a := t)]

theorem State.decSp_eq_ok {s t : State} :
    s.decSp = .ok t ↔ (s.sp - 1).toNat < s.cfg.memSize ∧ t = s.setReg spReg (s.sp - 1) := by
  simp [State.decSp, bind_eq_ok, State.checkAddr_eq_ok, eq_comm (a := t)]

/-! ## Inversion of the effects: the guards and the state of each instruction that completes -/

theorem hltEffect_eq_ok {s t : State} :
    hltEffect s = .ok t ↔ t = { s with halted := true }.advance 1 := by
  simp [hltEffect, eq_comm (a := t)]

theorem retEffect_eq_ok {s t : State} :
    retEffect s = .ok t ↔
      s.sp.toNat < s.cfg.memSize ∧ t = (s.jumpTo (s.mem.read s.sp.toNat)).incSp := by
  simp [retEffect, bind_eq_ok, State.memRead_eq_ok, and_assoc, eq_comm (a := t)]

/-- The store goes to the decremented SP and its value is read after the SP write (43_stack.md R191). -/
theorem pushEffect_eq_ok {ra : Byte} {s t : State} :
    pushEffect ra s = .ok t ↔
      ∃ r, ra = regByte r ∧ (s.sp - 1).toNat < s.cfg.memSize ∧
        t = ((s.setReg spReg (s.sp - 1)).store (s.sp - 1).toNat
              (if r = spReg then s.sp - 1 else s.reg r)).advance 2 := by
  simp [pushEffect, bind_eq_ok, regIndex_eq_ok, State.decSp_eq_ok, State.memWrite_eq_ok, and_assoc, eq_comm (a := t)]

theorem popEffect_eq_ok {ra : Byte} {s t : State} :
    popEffect ra s = .ok t ↔
      ∃ r, ra = regByte r ∧ s.sp.toNat < s.cfg.memSize ∧
        t = (s.setReg r (s.mem.read s.sp.toNat)).incSp.advance 2 := by
  simp [popEffect, bind_eq_ok, regIndex_eq_ok, State.memRead_eq_ok, and_assoc, eq_comm (a := t)]

theorem prnEffect_eq_ok {ra : Byte} {s t : State} :
    prnEffect ra s = .ok t ↔ ∃ r, ra = regByte r ∧ t = (s.emitOut (s.reg r)).advance 2 := by
  simp [prnEffect, bind_eq_ok, regIndex_eq_ok, eq_comm (a := t)]

/-- The target is read after the SP write (44_control_transfer.md R211). -/
theorem callEffect_eq_ok {ra : Byte} {s t : State} :
    callEffect ra s = .ok t ↔
      ∃ r, ra = regByte r ∧ s.pc + 2 < s.cfg.memSize ∧ (s.sp - 1).toNat < s.cfg.memSize ∧
        t = ((s.setReg spReg (s.sp - 1)).store (s.sp - 1).toNat (BitVec.ofNat 8 (s.pc + 2))).jumpTo
              (if r = spReg then s.sp - 1 else s.reg r) := by
  simp [callEffect, bind_eq_ok, regIndex_eq_ok, State.checkAddr_eq_ok, State.decSp_eq_ok,
    State.memWrite_eq_ok, and_assoc, eq_comm (a := t)]

theorem jmpEffect_eq_ok {ra : Byte} {s t : State} :
    jmpEffect ra s = .ok t ↔ ∃ r, ra = regByte r ∧ t = s.jumpTo (s.reg r) := by
  simp [jmpEffect, bind_eq_ok, regIndex_eq_ok, eq_comm (a := t)]

theorem branchEffect_eq_ok {taken : Bool} {ra : Byte} {s t : State} :
    branchEffect taken ra s = .ok t ↔
      ∃ r, ra = regByte r ∧ t = if taken then s.jumpTo (s.reg r) else s.advance 2 := by
  simp [branchEffect, bind_eq_ok, regIndex_eq_ok, eq_comm (a := t)]

theorem ldiEffect_eq_ok {ra imm : Byte} {s t : State} :
    ldiEffect ra imm s = .ok t ↔ ∃ r, ra = regByte r ∧ t = (s.setReg r imm).advance 3 := by
  simp [ldiEffect, immediate, bind_eq_ok, regIndex_eq_ok, eq_comm (a := t)]

theorem mulEffect_eq_ok {ra rb : Byte} {s t : State} :
    mulEffect ra rb s = .ok t ↔
      ∃ a b, ra = regByte a ∧ rb = regByte b ∧
        t = (s.setReg a (aluMul (s.reg a) (s.reg b))).advance 3 := by
  simp [mulEffect, bind_eq_ok, regIndex_eq_ok, eq_comm (a := t)]

theorem cmpEffect_eq_ok {ra rb : Byte} {s t : State} :
    cmpEffect ra rb s = .ok t ↔
      ∃ a b, ra = regByte a ∧ rb = regByte b ∧
        t = { s with fl := compareFlags (s.reg a) (s.reg b) }.advance 3 := by
  simp [cmpEffect, bind_eq_ok, regIndex_eq_ok, eq_comm (a := t)]

/-! ## The execute phase and the step -/

/-- The effect `exec` commits for each instruction (`exec_eq_commit`). -/
def effect : Instr → State → Except Raise State
  | .hlt => hltEffect
  | .ret => retEffect
  | .push ra => pushEffect ra
  | .pop ra => popEffect ra
  | .prn ra => prnEffect ra
  | .call ra => callEffect ra
  | .jmp ra => jmpEffect ra
  | .jeq ra => fun s => branchEffect s.flagE ra s
  | .jne ra => fun s => branchEffect (!s.flagE) ra s
  | .ldi ra imm => ldiEffect ra imm
  | .mul ra rb => mulEffect ra rb
  | .cmp ra rb => cmpEffect ra rb

/-- Every instruction ends in the commit of its effect under its own opcode (40_cycle.md R127). -/
theorem exec_eq_commit (i : Instr) (s : State) : exec i s = s.commit i.opcode (effect i s) := by
  cases i <;> rfl

/-- The inversion of `exec`: the effect completed, or it raised and the fault entry of the start state is next. -/
theorem exec_cases {i : Instr} {s t : State} (h : exec i s = .next t) :
    effect i s = .ok t ∨ ∃ e, effect i s = .error e ∧ t = s.takeFault (some i.opcode) e :=
  State.commit_cases (exec_eq_commit i s ▸ h)

/-! ## The parameters are outside the reach of every step (00_scope.md R5) -/

theorem effect_cfg {i : Instr} {s t : State} (h : effect i s = .ok t) : t.cfg = s.cfg := by
  cases i with
  | hlt => rw [hltEffect_eq_ok.1 h]; rfl
  | ret => obtain ⟨-, rfl⟩ := retEffect_eq_ok.1 h; rfl
  | push ra => obtain ⟨r, -, -, rfl⟩ := pushEffect_eq_ok.1 h; rfl
  | pop ra => obtain ⟨r, -, -, rfl⟩ := popEffect_eq_ok.1 h; rfl
  | prn ra => obtain ⟨r, -, rfl⟩ := prnEffect_eq_ok.1 h; rfl
  | call ra => obtain ⟨r, -, -, -, rfl⟩ := callEffect_eq_ok.1 h; rfl
  | jmp ra => obtain ⟨r, -, rfl⟩ := jmpEffect_eq_ok.1 h; rfl
  | jeq ra => obtain ⟨r, -, rfl⟩ := branchEffect_eq_ok.1 h; split <;> rfl
  | jne ra => obtain ⟨r, -, rfl⟩ := branchEffect_eq_ok.1 h; split <;> rfl
  | ldi ra imm => obtain ⟨r, -, rfl⟩ := ldiEffect_eq_ok.1 h; rfl
  | mul ra rb => obtain ⟨a, b, -, -, rfl⟩ := mulEffect_eq_ok.1 h; rfl
  | cmp ra rb => obtain ⟨a, b, -, -, rfl⟩ := cmpEffect_eq_ok.1 h; rfl

theorem exec_cfg {i : Instr} {s t : State} (h : exec i s = .next t) : t.cfg = s.cfg := by
  rcases exec_cases h with hok | ⟨e, -, rfl⟩
  · exact effect_cfg hok
  · rfl

@[simp] theorem State.unassigned_cfg (s : State) (op : Byte) : (s.unassigned op).cfg = s.cfg := by
  unfold State.unassigned
  split <;> rfl

@[simp] theorem State.onReject_cfg (s : State) (r : Reject) : (s.onReject r).cfg = s.cfg := by
  cases r with
  | noOpcode => rfl
  | unassigned op => exact State.unassigned_cfg s op
  | noOperandA op => rfl
  | noOperandB op => rfl

/-- Settles O37: a step executes an instruction or rejects the fetched bytes, after a trace record; none of the
three touches the parameters. -/
theorem parametersNeverChange : Obligations.ParametersNeverChange := by
  intro s t h
  obtain ⟨-, ⟨i, rest, -, hexec⟩ | ⟨r, -, rfl⟩⟩ := step_cases h
  · rw [exec_cfg hexec, State.emitTrace_cfg]
  · rw [State.onReject_cfg, State.emitTrace_cfg]

/-! ## Bounds on pc and on the pc of the fault record (10_state.md R37, R47) -/

/-- A legal record is clear, with a pc of 0, or holds the pc the engine stopped at. -/
theorem FaultRecord.Legal.pc_le {f : FaultRecord} {c : Config} {pc : Nat} (h : f.Legal c pc) : f.pc ≤ pc := by
  rcases h with rfl | ⟨-, hpc, -⟩
  · exact Nat.zero_le pc
  · exact hpc.le

/-- Below `MEM_SIZE` = 255 a jump target may lie above memory (log entry 2); from there on none does. -/
theorem Inv.pc_le_memSize {s : State} (h : Inv s) (hsize : 255 ≤ s.cfg.memSize) : s.pc ≤ s.cfg.memSize := by
  simpa [max_eq_left hsize] using h.pcRange

theorem pcWidth_eq_nine {c : Config} (h : c.memSize = 256) : c.pcWidth = 9 := by
  rw [Config.pcWidth, h]
  decide

/-- Settles O41: pc is at most `MEM_SIZE` and bounds the pc of the record, and 256 < 2 ^ 9. -/
theorem pcFitsNineBits : Obligations.PcFitsNineBits := by
  intro s hinv hsize
  have hwidth : s.cfg.pcWidth = 9 := pcWidth_eq_nine hsize
  have hpc : s.pc ≤ 256 := hsize ▸ hinv.pc_le_memSize (by omega)
  have hrec : s.faultRec.pc ≤ s.pc := hinv.record.pc_le
  rw [hwidth]
  exact ⟨rfl, hpc, by omega, by omega⟩

end Sys2Proof.Machine

/-! # What a step can do, stated once: what memory holds at pc, how the instruction there ends, and the rules and the
invariant of 10_state.md -/

namespace Sys2Proof

/-! ## Decoding against the encoding (30_encoding.md R92, R95) -/

/-- The bytes of a format's instruction are the opcode and then its operands (`opTable_encodes`). -/
def Format.Encodes (op : Byte) : Format → Prop
  | .f0 i => encode i = [op]
  | .f1r mk => ∀ a, encode (mk a) = [op, a]
  | .f2ri mk => ∀ a b, encode (mk a b) = [op, a, b]
  | .f2rr mk => ∀ a b, encode (mk a b) = [op, a, b]

theorem opTable_encodes : ∀ row ∈ opTable, row.format.Encodes row.opcode := by
  simp [opTable, Format.Encodes, encode]

theorem takeOne_eq_instr {op : Byte} {mk : Byte → Instr} {bytes rest : List Byte} {i : Instr}
    (h : takeOne op mk bytes = .instr i rest) : ∃ a, bytes = a :: rest ∧ i = mk a := by
  cases bytes with
  | nil => simp [takeOne] at h
  | cons a bytes =>
    obtain ⟨rfl, rfl⟩ : mk a = i ∧ bytes = rest := by simpa [takeOne] using h
    exact ⟨a, rfl, rfl⟩

theorem takeTwo_eq_instr {op : Byte} {mk : Byte → Byte → Instr} {bytes rest : List Byte} {i : Instr}
    (h : takeTwo op mk bytes = .instr i rest) : ∃ a b, bytes = a :: b :: rest ∧ i = mk a b := by
  match bytes with
  | [] => simp [takeTwo] at h
  | [_] => simp [takeTwo] at h
  | a :: b :: bytes =>
    obtain ⟨rfl, rfl⟩ : mk a b = i ∧ bytes = rest := by simpa [takeTwo] using h
    exact ⟨a, b, rfl, rfl⟩

theorem takeOperands_eq_instr {op : Byte} {f : Format} {bytes rest : List Byte} {i : Instr}
    (hf : f.Encodes op) (h : takeOperands op f bytes = .instr i rest) : op :: bytes = encode i ++ rest := by
  cases f with
  | f0 j =>
    obtain ⟨rfl, rfl⟩ : j = i ∧ bytes = rest := by simpa [takeOperands] using h
    rw [hf]; rfl
  | f1r mk =>
    obtain ⟨a, rfl, rfl⟩ := takeOne_eq_instr h
    rw [hf]; rfl
  | f2ri mk =>
    obtain ⟨a, b, rfl, rfl⟩ := takeTwo_eq_instr h
    rw [hf]; rfl
  | f2rr mk =>
    obtain ⟨a, b, rfl, rfl⟩ := takeTwo_eq_instr h
    rw [hf]; rfl

/-- An instruction is read from nothing but its own bytes. -/
theorem eq_encode_of_decode {bytes rest : List Byte} {i : Instr} (h : decode bytes = .instr i rest) :
    bytes = encode i ++ rest := by
  cases bytes with
  | nil => simp [decode] at h
  | cons op bytes =>
    cases hrow : lookupOpcode op with
    | none => simp [decode, hrow] at h
    | some row =>
      obtain ⟨hmem, rfl⟩ := lookupOpcode_some hrow
      exact takeOperands_eq_instr (opTable_encodes row hmem) (by simpa [decode, hrow] using h)

theorem decode_encode_append (i : Instr) (rest : List Byte) : decode (encode i ++ rest) = .instr i rest := by
  cases i <;> rfl

theorem encode_getElem?_zero (i : Instr) : (encode i)[0]? = some i.opcode := by
  cases i <;> rfl

/-! ## Rejected bytes (30_encoding.md R98; 40_cycle.md R123) -/

/-- The bytes a rejection speaks of: none, an opcode no row has, or an opcode with one or two operand bytes
missing (`decode_eq_reject`). -/
def Reject.Explains (bytes : List Byte) : Reject → Prop
  | .noOpcode => bytes = []
  | .unassigned op => bytes.head? = some op ∧ op ∉ Machine.assignedOpcodes
  | .noOperandA _ => bytes.length = 1
  | .noOperandB _ => bytes.length = 2

theorem lookupOpcode_eq_none_iff {op : Byte} : lookupOpcode op = none ↔ op ∉ Machine.assignedOpcodes := by
  have hrows : Machine.assignedOpcodes = opTable.map OpRow.opcode := rfl
  rw [lookupOpcode_none, hrows, List.mem_map]
  simp

theorem takeOne_eq_reject {op : Byte} {mk : Byte → Instr} {bytes : List Byte} {r : Reject}
    (h : takeOne op mk bytes = .reject r) : r.Explains (op :: bytes) := by
  cases bytes with
  | nil =>
    obtain rfl : .noOperandA op = r := by simpa [takeOne] using h
    rfl
  | cons a bytes => simp [takeOne] at h

theorem takeTwo_eq_reject {op : Byte} {mk : Byte → Byte → Instr} {bytes : List Byte} {r : Reject}
    (h : takeTwo op mk bytes = .reject r) : r.Explains (op :: bytes) := by
  match bytes with
  | [] =>
    obtain rfl : .noOperandA op = r := by simpa [takeTwo] using h
    rfl
  | [_] =>
    obtain rfl : .noOperandB op = r := by simpa [takeTwo] using h
    rfl
  | _ :: _ :: _ => simp [takeTwo] at h

theorem decode_eq_reject {bytes : List Byte} {r : Reject} (h : decode bytes = .reject r) : r.Explains bytes := by
  cases bytes with
  | nil =>
    obtain rfl : .noOpcode = r := by simpa [decode] using h
    rfl
  | cons op bytes =>
    cases hrow : lookupOpcode op with
    | none =>
      obtain rfl : .unassigned op = r := by simpa [decode, hrow] using h
      exact ⟨rfl, lookupOpcode_eq_none_iff.1 hrow⟩
    | some row =>
      have htake : takeOperands op row.format bytes = .reject r := by simpa [decode, hrow] using h
      cases hf : row.format with
      | f0 i => simp [hf, takeOperands] at htake
      | f1r mk => exact takeOne_eq_reject (hf ▸ htake)
      | f2ri mk => exact takeTwo_eq_reject (hf ▸ htake)
      | f2rr mk => exact takeTwo_eq_reject (hf ▸ htake)

end Sys2Proof

namespace Sys2Proof.Machine

/-! ## The bytes that memory holds -/

theorem HoldsAt.read_of_getElem? {s : State} {a k : Nat} {bytes : List Byte} {b : Byte}
    (h : HoldsAt s a bytes) (hk : bytes[k]? = some b) : a + k < s.cfg.memSize ∧ s.mem.read (a + k) = b := by
  obtain ⟨hlt, rfl⟩ := List.getElem?_eq_some_iff.1 hk
  exact h ⟨k, hlt⟩

theorem HoldsAt.singleton {s : State} {a : Nat} {b : Byte} (hlt : a < s.cfg.memSize) (hb : s.mem.read a = b) :
    HoldsAt s a [b] := by
  intro k
  obtain rfl : k = 0 := Fin.fin_one_eq_zero k
  exact ⟨hlt, hb⟩

/-- The last byte of an instruction is inside memory. -/
theorem HoldsAt.end_le {s : State} {a : Nat} {i : Instr} (h : HoldsAt s a (encode i)) :
    a + i.length ≤ s.cfg.memSize := by
  have hpos : 0 < i.length := by cases i <;> simp [Instr.length, encode]
  have := (h ⟨i.length - 1, Nat.sub_lt hpos Nat.one_pos⟩).1
  simp only at this
  omega

/-- The opcode of the instruction at an address. -/
theorem HoldsAt.opcode {s : State} {a : Nat} {i : Instr} (h : HoldsAt s a (encode i)) :
    a < s.cfg.memSize ∧ s.mem.read a = i.opcode :=
  h.read_of_getElem? (encode_getElem?_zero i)

/-- A fetch of fewer than three bytes was cut off at the end of memory. -/
theorem State.memSize_le_of_fetched_length {s : State} (h : s.fetched.length < 3) :
    s.cfg.memSize ≤ s.pc + s.fetched.length := by
  rcases s.fetched_cases with ⟨hle, hf⟩ | ⟨-, hle, hf⟩ | ⟨-, hle, hf⟩ | ⟨-, hf⟩
  · simpa [hf] using hle
  · simpa [hf] using hle
  · simpa [hf] using hle
  · simp [hf] at h

theorem State.read_pc_of_fetched_head? {s : State} {op : Byte} (h : s.fetched.head? = some op) :
    s.pc < s.cfg.memSize ∧ s.mem.read s.pc = op := by
  obtain ⟨rest, hrest⟩ := List.head?_eq_some_iff.1 h
  obtain ⟨hlt, hread, -⟩ := (State.bytesFrom_prefix (bs := [op]) hrest).cons
  exact ⟨hlt, hread⟩

/-! ## How an instruction completes -/

/-- The states in which an instruction completes, with the guard that it passed (`Completes.of_effect`). -/
inductive Completes (s : State) : Instr → State → Prop
  | hlt : Completes s .hlt ({ s with halted := true }.advance 1)
  | ret (sp : s.sp.toNat < s.cfg.memSize) :
      Completes s .ret (s.jumpTo (s.mem.read s.sp.toNat)).incSp
  | push (r : Fin 8) (sp : (s.sp - 1).toNat < s.cfg.memSize) :
      Completes s (.push (regByte r))
        (((s.setReg spReg (s.sp - 1)).store (s.sp - 1).toNat (if r = spReg then s.sp - 1 else s.reg r)).advance 2)
  | pop (r : Fin 8) (sp : s.sp.toNat < s.cfg.memSize) :
      Completes s (.pop (regByte r)) ((s.setReg r (s.mem.read s.sp.toNat)).incSp.advance 2)
  | prn (r : Fin 8) : Completes s (.prn (regByte r)) ((s.emitOut (s.reg r)).advance 2)
  | call (r : Fin 8) (ret : s.pc + 2 < s.cfg.memSize) (sp : (s.sp - 1).toNat < s.cfg.memSize) :
      Completes s (.call (regByte r))
        (((s.setReg spReg (s.sp - 1)).store (s.sp - 1).toNat (BitVec.ofNat 8 (s.pc + 2))).jumpTo
          (if r = spReg then s.sp - 1 else s.reg r))
  | jmp (r : Fin 8) : Completes s (.jmp (regByte r)) (s.jumpTo (s.reg r))
  | jeqTaken (r : Fin 8) (flag : s.flagE = true) : Completes s (.jeq (regByte r)) (s.jumpTo (s.reg r))
  | jeqNext (r : Fin 8) (flag : s.flagE = false) : Completes s (.jeq (regByte r)) (s.advance 2)
  | jneTaken (r : Fin 8) (flag : s.flagE = false) : Completes s (.jne (regByte r)) (s.jumpTo (s.reg r))
  | jneNext (r : Fin 8) (flag : s.flagE = true) : Completes s (.jne (regByte r)) (s.advance 2)
  | ldi (r : Fin 8) (imm : Byte) : Completes s (.ldi (regByte r) imm) ((s.setReg r imm).advance 3)
  | mul (a b : Fin 8) :
      Completes s (.mul (regByte a) (regByte b)) ((s.setReg a (aluMul (s.reg a) (s.reg b))).advance 3)
  | cmp (a b : Fin 8) :
      Completes s (.cmp (regByte a) (regByte b)) ({ s with fl := compareFlags (s.reg a) (s.reg b) }.advance 3)

theorem Completes.of_effect {i : Instr} {s t : State} (h : effect i s = .ok t) : Completes s i t := by
  cases i with
  | hlt => rw [hltEffect_eq_ok.1 h]; exact .hlt
  | ret => obtain ⟨hsp, rfl⟩ := retEffect_eq_ok.1 h; exact .ret hsp
  | push ra => obtain ⟨r, rfl, hsp, rfl⟩ := pushEffect_eq_ok.1 h; exact .push r hsp
  | pop ra => obtain ⟨r, rfl, hsp, rfl⟩ := popEffect_eq_ok.1 h; exact .pop r hsp
  | prn ra => obtain ⟨r, rfl, rfl⟩ := prnEffect_eq_ok.1 h; exact .prn r
  | call ra => obtain ⟨r, rfl, hret, hsp, rfl⟩ := callEffect_eq_ok.1 h; exact .call r hret hsp
  | jmp ra => obtain ⟨r, rfl, rfl⟩ := jmpEffect_eq_ok.1 h; exact .jmp r
  | jeq ra =>
    obtain ⟨r, rfl, rfl⟩ := branchEffect_eq_ok.1 h
    cases hE : s.flagE with
    | true => exact .jeqTaken r hE
    | false => exact .jeqNext r hE
  | jne ra =>
    obtain ⟨r, rfl, rfl⟩ := branchEffect_eq_ok.1 h
    cases hE : s.flagE with
    | true => exact .jneNext r hE
    | false => exact .jneTaken r hE
  | ldi ra imm => obtain ⟨r, rfl, rfl⟩ := ldiEffect_eq_ok.1 h; exact .ldi r imm
  | mul ra rb => obtain ⟨a, b, rfl, rfl, rfl⟩ := mulEffect_eq_ok.1 h; exact .mul a b
  | cmp ra rb => obtain ⟨a, b, rfl, rfl, rfl⟩ := cmpEffect_eq_ok.1 h; exact .cmp a b

/-! ### What each instruction that completes changes, field by field -/

section
variable {s t : State} {i : Instr}

/-- Nothing but `halted` changes of what an instruction leaves alone. -/
theorem Completes.sameRest (h : Completes s i t) : SameRest { s with halted := t.halted } t := by
  cases h <;> exact ⟨rfl, rfl, rfl, rfl, rfl⟩

theorem Completes.halted (h : Completes s i t) : t.halted = true ↔ i = .hlt ∨ s.halted = true := by
  cases h with
  | hlt => simp
  | _ => simp [State.incSp]

/-- One of the three values of 42_alu.md R174. -/
theorem compareFlags_cases (x y : Byte) :
    compareFlags x y = 0x01 ∨ compareFlags x y = 0x02 ∨ compareFlags x y = 0x04 := by
  unfold compareFlags
  split
  · exact .inl rfl
  · split
    · exact .inr (.inl rfl)
    · exact .inr (.inr rfl)

theorem Completes.fl (h : Completes s i t) :
    (i.opcode ≠ opCMP ∧ t.fl = s.fl) ∨ (i.opcode = opCMP ∧ (t.fl = 0x01 ∨ t.fl = 0x02 ∨ t.fl = 0x04)) := by
  cases h with
  | cmp a b => exact .inr ⟨rfl, compareFlags_cases _ _⟩
  | _ => exact .inl ⟨by simp only [Instr.opcode]; decide, rfl⟩

theorem Completes.mem (h : Completes s i t) :
    t.mem = s.mem ∨
      (i.opcode ∈ [opPUSH, opCALL] ∧ (s.sp - 1).toNat < s.cfg.memSize ∧
        ∃ v, t.mem = s.mem.write (s.sp - 1).toNat v) := by
  cases h with
  | push r hsp => exact .inr ⟨by simp [Instr.opcode], hsp, _, rfl⟩
  | call r _ hsp => exact .inr ⟨by simp [Instr.opcode], hsp, _, rfl⟩
  | _ => exact .inl rfl

/-- pc goes past the instruction or to a byte (40_cycle.md R128). -/
theorem Completes.pc (h : Completes s i t) : t.pc = s.pc + i.length ∨ ∃ v : Byte, t.pc = v.toNat := by
  cases h with
  | ret | call | jmp | jeqTaken | jneTaken => exact .inr ⟨_, rfl⟩
  | _ => exact .inl rfl

theorem State.eq_of_setReg_reg_ne {s : State} {j q : Fin 8} {v : Byte} (h : (s.setReg j v).reg q ≠ s.reg q) :
    q = j := by
  by_contra hne
  simp [hne] at h

theorem Completes.reg {q : Fin 8} (h : Completes s i t) (hne : t.reg q ≠ s.reg q) :
    (i.opcode ∈ [opLDI, opMUL, opPOP] ∧ (encode i)[1]? = some (regByte q)) ∨
      (q = 7 ∧ i.opcode ∈ [opPUSH, opPOP, opCALL, opRET]) := by
  cases h with
  | ldi | mul =>
    obtain rfl := State.eq_of_setReg_reg_ne hne
    exact .inl ⟨by simp [Instr.opcode], rfl⟩
  | ret | push | call =>
    obtain rfl := State.eq_of_setReg_reg_ne hne
    exact .inr ⟨rfl, by simp [Instr.opcode]⟩
  | pop r _ =>
    by_cases hq : q = spReg
    · exact .inr ⟨hq, by simp [Instr.opcode]⟩
    · obtain rfl : q = r := State.eq_of_setReg_reg_ne (by simpa [State.incSp, hq] using hne)
      exact .inl ⟨by simp [Instr.opcode], rfl⟩
  | _ => exact absurd rfl hne

end

/-! ## What a step raises (60_exceptions.md R241, R244) -/

/-- The reason the spec gives for a raise at a pc, with the opcode that its record gets (`effect_raise_justified`,
`step_outcome`). -/
def Raise.Justified (c : Config) (pc : Nat) (op? : Option Byte) : Raise → Prop
  | .memoryFault a => c.memSize ≤ a ∧ (op? = none → a = pc)
  | .invalidRegister b => 8 ≤ b.toNat ∧ op?.isSome
  | .unknownInstruction op => op? = some op ∧ c.policy = .strict

section
variable {s : State} {op : Byte} {e : Raise}

theorem regIndex_raise_justified {b : Byte} (h : regIndex b = .error e) : e.Justified s.cfg s.pc (some op) := by
  rcases regIndex_cases b with ⟨r, -, hok⟩ | ⟨hb, herr⟩
  · simp [hok] at h
  · obtain rfl : .invalidRegister b = e := by simpa [herr] using h
    exact ⟨hb, rfl⟩

theorem State.checkAddr_raise_justified {a : Nat} (h : s.checkAddr a = .error e) :
    e.Justified s.cfg s.pc (some op) := by
  by_cases ha : a < s.cfg.memSize
  · simp [State.checkAddr_ok ha] at h
  · have hle := Nat.not_lt.1 ha
    obtain rfl : .memoryFault a = e := by simpa [State.checkAddr_error hle] using h
    exact ⟨hle, nofun⟩

/-- A raise comes from the first operation of a sequence or from the rest. -/
theorem justified_of_bind {α β : Type} {x : Except Raise α} {f : α → Except Raise β}
    (h : (x >>= f) = .error e) (hx : x = .error e → e.Justified s.cfg s.pc (some op))
    (hf : ∀ a, x = .ok a → f a = .error e → e.Justified s.cfg s.pc (some op)) :
    e.Justified s.cfg s.pc (some op) := by
  cases x with
  | error e' => exact hx (by simpa using h)
  | ok a => exact hf a rfl h

theorem State.memRead_raise_justified {a : Nat} (h : s.memRead a = .error e) : e.Justified s.cfg s.pc (some op) :=
  justified_of_bind h State.checkAddr_raise_justified nofun

theorem State.memWrite_raise_justified {a : Nat} {v : Byte} (h : s.memWrite a v = .error e) :
    e.Justified s.cfg s.pc (some op) :=
  justified_of_bind h State.checkAddr_raise_justified nofun

/-- The end that PUSH and CALL share: the SP write, then the store through the new SP. -/
theorem decSp_memWrite_raise_justified {v : State → Byte} {k : State → State}
    (h : (s.decSp >>= fun s₁ => s₁.memWrite s₁.sp.toNat (v s₁) >>= fun s₂ => pure (k s₂)) = .error e) :
    e.Justified s.cfg s.pc (some op) :=
  justified_of_bind h (fun h => justified_of_bind h State.checkAddr_raise_justified nofun) fun s₁ hs₁ h => by
    obtain ⟨-, rfl⟩ := State.decSp_eq_ok.1 hs₁
    exact justified_of_bind h (State.memWrite_raise_justified (s := s.setReg spReg (s.sp - 1))) nofun

/-- The cause of an instruction's raise is a listed one, whatever its opcode. -/
theorem effect_raise_justified {i : Instr} (h : effect i s = .error e) : e.Justified s.cfg s.pc (some op) := by
  cases i with
  | hlt => nomatch h
  | ret => exact justified_of_bind h State.memRead_raise_justified nofun
  | push ra =>
    exact justified_of_bind h regIndex_raise_justified fun r _ h => decSp_memWrite_raise_justified (v := (·.reg r)) h
  | pop ra =>
    exact justified_of_bind h regIndex_raise_justified fun _ _ h =>
      justified_of_bind h State.memRead_raise_justified nofun
  | call ra =>
    exact justified_of_bind h regIndex_raise_justified fun r _ h =>
      justified_of_bind h State.checkAddr_raise_justified fun _ _ h =>
        decSp_memWrite_raise_justified (k := fun s₂ => s₂.jumpTo (s₂.reg r)) h
  | mul | cmp =>
    exact justified_of_bind h regIndex_raise_justified fun _ _ h =>
      justified_of_bind h regIndex_raise_justified nofun
  | prn | jmp | jeq | jne | ldi => exact justified_of_bind h regIndex_raise_justified nofun

end

theorem State.unassigned_of_lenient {s : State} (h : s.cfg.policy = .lenient) (op : Byte) :
    s.unassigned op = (s.emitDiag op).advance 1 := by
  simp [State.unassigned, h]

theorem State.unassigned_of_strict {s : State} (h : s.cfg.policy = .strict) (op : Byte) :
    s.unassigned op = s.takeFault (some op) (.unknownInstruction op) := by
  simp [State.unassigned, h]

/-! ## What a step can do (40_cycle.md R129) -/

/-- The three ends of a step: an instruction completes, a fault is entered (60_exceptions.md R244), or an unassigned
opcode is skipped (40_cycle.md R125), each after the trace record (`step_outcome`). -/
inductive StepOutcome (s : State) : State → Prop
  | completes {i : Instr} {t : State} (bytes : HoldsAt s s.pc (encode i)) (run : Completes (traced s) i t) :
      StepOutcome s t
  | faults {op? : Option Byte} {e : Raise} (raise : e.Justified s.cfg s.pc op?) :
      StepOutcome s ((traced s).takeFault op? e)
  | skips (inside : s.pc < s.cfg.memSize) (unassigned : s.mem.read s.pc ∉ assignedOpcodes)
      (policy : s.cfg.policy = .lenient) : StepOutcome s (((traced s).emitDiag (s.mem.read s.pc)).advance 1)

/-- The bytes fetched at pc are rejected: a skip under `lenient`, and a fault in every other case. -/
theorem StepOutcome.of_reject {s : State} {r : Reject} (h : decode s.fetched = .reject r) :
    StepOutcome s ((traced s).onReject r) := by
  have hr : r.Explains s.fetched := decode_eq_reject h
  cases r with
  | noOpcode =>
    have hlen : s.fetched.length = 0 := List.length_eq_zero_iff.2 hr
    exact .faults ⟨by simpa [hlen] using s.memSize_le_of_fetched_length (by omega), fun _ => rfl⟩
  | unassigned op =>
    obtain ⟨hhead, hop⟩ := hr
    obtain ⟨hlt, rfl⟩ := State.read_pc_of_fetched_head? hhead
    cases hpol : s.cfg.policy with
    | lenient =>
      rw [State.onReject, State.unassigned_of_lenient (s := traced s) hpol]
      exact .skips hlt hop hpol
    | strict =>
      rw [State.onReject, State.unassigned_of_strict (s := traced s) hpol]
      exact .faults ⟨rfl, hpol⟩
  | noOperandA op =>
    have hlen : s.fetched.length = 1 := hr
    exact .faults ⟨hlen ▸ s.memSize_le_of_fetched_length (by omega), nofun⟩
  | noOperandB op =>
    have hlen : s.fetched.length = 2 := hr
    exact .faults ⟨hlen ▸ s.memSize_le_of_fetched_length (by omega), nofun⟩

theorem StepOutcome.of_exec {s t : State} {i : Instr} (hbytes : HoldsAt s s.pc (encode i))
    (h : exec i (traced s) = .next t) : StepOutcome s t := by
  rcases exec_cases h with hok | ⟨e, herr, rfl⟩
  · exact .completes hbytes (.of_effect hok)
  · exact .faults (effect_raise_justified (s := traced s) herr)

/-- The inversion of the step. -/
theorem step_outcome {s t : State} (h : step s = .next t) : Running s ∧ StepOutcome s t := by
  obtain ⟨hrun, ⟨i, rest, hdec, hexec⟩ | ⟨r, hdec, rfl⟩⟩ := step_cases h
  · exact ⟨hrun, .of_exec (State.bytesFrom_prefix (eq_encode_of_decode hdec)) (s.emitTrace_eq ▸ hexec)⟩
  · exact ⟨hrun, s.emitTrace_eq ▸ .of_reject hdec⟩

/-- The instruction that memory holds at pc is the one executed. -/
theorem step_of_holdsAt {s : State} {i : Instr} (hrun : Running s) (h : HoldsAt s s.pc (encode i)) :
    step s = exec i (traced s) := by
  have hlen : (encode i).length ≤ 3 := by cases i <;> simp [encode]
  rw [step_running hrun, State.fetched, State.bytesFrom_holds h hlen, decode_encode_append, State.emitTrace_eq]

/-! ## What a step does to FL, `halted` and the registers (10_state.md R31, R43, R46) -/

theorem Completes.faultRec {s t : State} {i : Instr} (h : Completes s i t) : t.faultRec = s.faultRec :=
  h.sameRest.faultRec

/-- Settles O32: of the instructions that complete only CMP writes FL, a fault and a skip leave it, and a skipped
opcode is not CMP's. -/
theorem onlyCmpWritesFlags : Obligations.OnlyCmpWritesFlags := by
  intro s t h
  obtain ⟨⟨-, hrun⟩, hout⟩ := step_outcome h
  cases hout with
  | completes bytes run =>
    have hnofault : t.faultRec.faulted = false := run.faultRec ▸ hrun
    rw [bytes.opcode.2, hnofault]
    rcases run.fl with ⟨hop, hfl⟩ | ⟨hop, hfl⟩
    · exact ⟨fun _ => hfl, fun hcmp => absurd hcmp hop⟩
    · exact ⟨fun hor => absurd hop (hor.resolve_right nofun), fun _ _ => hfl⟩
  | faults _ => exact ⟨fun _ => rfl, nofun⟩
  | skips _ hop _ => exact ⟨fun _ => rfl, fun hcmp => absurd (hcmp ▸ by decide) hop⟩

/-- Settles O33: only HLT completes with `halted` set, and HLT at pc is executed and cannot raise. -/
theorem onlyHltHalts : Obligations.OnlyHltHalts := by
  intro s t h
  obtain ⟨hrun, hout⟩ := step_outcome h
  have hhalted : ¬(traced s).halted = true := by simp [hrun.1]
  constructor
  · intro hhalt
    cases hout with
    | completes bytes run =>
      obtain rfl : _ = Instr.hlt := (run.halted.1 hhalt).resolve_right hhalted
      exact bytes.opcode
    | faults _ => exact absurd hhalt hhalted
    | skips _ _ _ => exact absurd hhalt hhalted
  · rintro ⟨hlt, hop⟩
    rw [step_of_holdsAt (i := .hlt) hrun (.singleton hlt hop)] at h
    obtain rfl := Host.Outcome.next.inj h
    rfl

/-- Settles O35: the registers an instruction writes are named by its own bytes; faults and skips write none. -/
theorem onlyTheListedInstructionsWriteRegisters : Obligations.OnlyTheListedInstructionsWriteRegisters := by
  intro s t r h hne
  obtain ⟨-, hout⟩ := step_outcome h
  cases hout with
  | completes bytes run =>
    rw [bytes.opcode.2]
    rcases run.reg hne with ⟨hop, hra⟩ | hsp
    · exact .inl ⟨hop, (bytes.read_of_getElem? hra).2⟩
    · exact .inr hsp
  | faults _ => exact absurd rfl hne
  | skips _ _ _ => exact absurd rfl hne

/-! ## The invariant -/

/-- An engine that is not faulted has a record with every field 0 (10_state.md R47). -/
theorem FaultRecord.Legal.eq_clear {f : FaultRecord} {c : Config} {pc : Nat} (h : f.Legal c pc)
    (hf : f.faulted = false) : f = FaultRecord.clear := by
  rcases h with hclear | ⟨hfaulted, -⟩
  · exact hclear
  · simp [hf] at hfaulted

/-- Fault entry for a justified raise writes a legal record (60_exceptions.md R241, R244). -/
theorem State.takeFault_legal {s : State} {op? : Option Byte} {e : Raise} (h : e.Justified s.cfg s.pc op?) :
    (s.takeFault op? e).faultRec.Legal s.cfg s.pc := by
  refine .inr ⟨rfl, rfl, ?_⟩
  cases e with
  | memoryFault a =>
    obtain ⟨hle, hpc⟩ := h
    refine ⟨.inl rfl, ?_, fun _ => hle⟩
    cases op? with
    | none => exact .inr ⟨rfl, rfl, hpc rfl⟩
    | some op => exact .inl rfl
  | invalidRegister b =>
    obtain ⟨hb, hop⟩ := h
    exact ⟨.inr (.inl ⟨rfl, hop, hb, b.isLt⟩), .inl hop, nofun⟩
  | unknownInstruction op =>
    obtain ⟨rfl, hpol⟩ := h
    exact ⟨.inr (.inr ⟨rfl, rfl, rfl, hpol⟩), .inl rfl, nofun⟩

section
variable {s t : State}

theorem Inv.faultRec_eq_clear (hinv : Inv s) (hrun : Running s) : s.faultRec = FaultRecord.clear :=
  hinv.record.eq_clear hrun.2

theorem Inv.traced (hinv : Inv s) : Inv (traced s) where
  params := hinv.params
  memCanonical := hinv.memCanonical
  memInside := hinv.memInside
  pcRange := hinv.pcRange
  flags := hinv.flags
  record := hinv.record
  oneEnd := hinv.oneEnd
  quietDiag := hinv.quietDiag
  quietTrace htrace := by
    have htrace : s.cfg.traceEn = false := htrace
    simp [Machine.traced, htrace, hinv.quietTrace htrace]

theorem Inv.takeFault {op? : Option Byte} {e : Raise} (hinv : Inv s) (hrun : Running s)
    (h : e.Justified s.cfg s.pc op?) : Inv (s.takeFault op? e) where
  params := hinv.params
  memCanonical := hinv.memCanonical
  memInside := hinv.memInside
  pcRange := hinv.pcRange
  flags := hinv.flags
  record := s.takeFault_legal h
  oneEnd hboth := by simp [hrun.1] at hboth
  quietDiag := hinv.quietDiag
  quietTrace := hinv.quietTrace

theorem Inv.skip {op : Byte} (hinv : Inv s) (hrun : Running s) (hpc : s.pc < s.cfg.memSize)
    (hpol : s.cfg.policy = .lenient) : Inv ((s.emitDiag op).advance 1) where
  params := hinv.params
  memCanonical := hinv.memCanonical
  memInside := hinv.memInside
  pcRange := le_max_of_le_left hpc
  flags := hinv.flags
  record := .inl (hinv.faultRec_eq_clear hrun)
  oneEnd := hinv.oneEnd
  quietDiag hstrict := by simp [hpol] at hstrict
  quietTrace := hinv.quietTrace

theorem Inv.completes {i : Instr} (hinv : Inv s) (hrun : Running s) (hbytes : HoldsAt s s.pc (encode i))
    (h : Completes s i t) : Inv t := by
  obtain ⟨hcfg, -, hrec, hdiags, htraces⟩ := h.sameRest
  simp only at hcfg hrec hdiags htraces
  have hclear : t.faultRec = FaultRecord.clear := hrec.trans (hinv.faultRec_eq_clear hrun)
  have hmem : t.mem.wf = true ∧ ∀ c ∈ t.mem, c.1 < s.cfg.memSize := by
    rcases h.mem with hmem | ⟨-, hlt, v, hmem⟩
    · rw [hmem]
      exact ⟨hinv.memCanonical, hinv.memInside⟩
    · rw [hmem]
      refine ⟨Memory.write_wf _ v hinv.memCanonical, fun c hc => ?_⟩
      rcases Memory.mem_write hc with rfl | hc
      · exact hlt
      · exact hinv.memInside c hc
  exact {
    params := hcfg ▸ hinv.params
    memCanonical := hmem.1
    memInside := hcfg ▸ hmem.2
    pcRange := by
      rw [hcfg]
      rcases h.pc with hpc | ⟨v, hpc⟩
      · exact hpc ▸ le_max_of_le_left hbytes.end_le
      · exact hpc ▸ le_max_of_le_right (Nat.le_of_lt_succ v.isLt)
    flags := by
      rcases h.fl with ⟨-, hfl⟩ | ⟨-, hfl⟩
      · exact hfl ▸ hinv.flags
      · exact .inr hfl
    record := .inl hclear
    oneEnd := by simp [hclear, FaultRecord.clear]
    quietDiag := by rw [hcfg, hdiags]; exact hinv.quietDiag
    quietTrace := by rw [hcfg, htraces]; exact hinv.quietTrace }

end

/-- Settles O38: the trace record keeps the invariant, and so does each of the three ends of a step. -/
theorem everyStepKeepsTheInvariant : Obligations.EveryStepKeepsTheInvariant := by
  intro s t hinv h
  obtain ⟨hrun, hout⟩ := step_outcome h
  cases hout with
  | completes bytes run => exact hinv.traced.completes hrun bytes run
  | faults raise => exact hinv.traced.takeFault hrun raise
  | skips inside _ policy => exact hinv.traced.skip hrun inside policy

/-! ## Reset (10_state.md R51) -/

theorem construct_reg_of_ne {c : Config} {r : Fin 8} (h : r ≠ 7) : (State.construct c).reg r = 0 := by
  match r with
  | 0 | 1 | 2 | 3 | 4 | 5 | 6 => rfl
  | 7 => exact absurd rfl h

/-- Settles O49: the values of a construction, and this hardware's `MEM_SIZE` with its default SP. -/
theorem resetLeavesTheStatedValues : Obligations.ResetLeavesTheStatedValues :=
  ⟨fun _ => ⟨Memory.read_nil, fun _ => construct_reg_of_ne, rfl, rfl, rfl, rfl, rfl, rfl⟩, rfl, rfl, rfl, rfl⟩

end Sys2Proof.Machine

/-! # Memory: what an instruction stores, and what the load port writes -/

namespace Sys2Proof.Machine

/-! ## The accesses of the engine (20_memory.md R61, R63, R76) -/

/-- Settles O34: of the three ends of a step only a completed instruction writes memory, and it writes no cell but
the one PUSH and CALL store to. -/
theorem onlyPushAndCallWriteMemory : Obligations.OnlyPushAndCallWriteMemory := by
  intro s t a h hne
  obtain ⟨-, hout⟩ := step_outcome h
  cases hout with
  | completes bytes run =>
    rcases run.mem with hmem | ⟨hop, -, v, hmem⟩
    · exact absurd (congrArg (Memory.read · a) hmem) hne
    · rw [bytes.opcode.2]
      refine ⟨hop, ?_⟩
      by_contra ha
      have hread : t.mem.read a = s.mem.read a := by
        rw [hmem, Memory.read_write]
        exact if_neg ha
      exact hne hread
  | faults _ => exact absurd rfl hne
  | skips _ _ _ => exact absurd rfl hne

theorem exec_of_effect {i : Instr} {s t : State} (h : effect i s = .ok t) : exec i s = .next t := by
  rw [exec_eq_commit, h, State.commit_ok]

/-- An instruction that completes raises nothing. -/
theorem exec_keeps_faultRec_of_effect {i : Instr} {s t : State} (h : effect i s = .ok t) :
    ∃ u, exec i s = .next u ∧ u.faultRec = s.faultRec :=
  ⟨t, exec_of_effect h, (Completes.of_effect h).faultRec⟩

/-- Settles O19: every SP is a byte, so it addresses a cell of a memory of 256 cells, before and after it is
decremented. -/
theorem noStackFaultInFullMemory : Obligations.NoStackFaultInFullMemory := by
  intro r s hsize
  have hbyte : ∀ b : Byte, b.toNat < s.cfg.memSize := fun b => hsize ▸ b.isLt
  refine ⟨?_, ?_, ?_, fun hret => ?_⟩
  · exact exec_keeps_faultRec_of_effect (pushEffect_eq_ok.2 ⟨r, rfl, hbyte _, rfl⟩)
  · exact exec_keeps_faultRec_of_effect (popEffect_eq_ok.2 ⟨r, rfl, hbyte _, rfl⟩)
  · exact exec_keeps_faultRec_of_effect (retEffect_eq_ok.2 ⟨hbyte _, rfl⟩)
  · exact exec_keeps_faultRec_of_effect (callEffect_eq_ok.2 ⟨r, rfl, hsize ▸ hret, hbyte _, rfl⟩)

/-- A push of a register other than R7, whose value the SP write leaves alone (43_stack.md R191). -/
theorem exec_push_of_ne {r : Fin 8} {s : State} (hr : r ≠ 7) (hsp : (s.sp - 1).toNat < s.cfg.memSize) :
    exec (.push (regByte r)) s =
      .next (((s.setReg spReg (s.sp - 1)).store (s.sp - 1).toNat (s.reg r)).advance 2) :=
  exec_of_effect (pushEffect_eq_ok.2 ⟨r, rfl, hsp, by rw [if_neg hr]⟩)

/-- Settles O48: after the PUSH memory holds the encoding of `i` at the decremented SP, and the engine still
runs. -/
theorem pushedByteIsFetched : Obligations.PushedByteIsFetched := by
  intro r i s u hrun hr hsp hi h
  rw [exec_push_of_ne hr hsp] at h
  obtain rfl := Host.Outcome.next.inj h
  refine step_of_holdsAt hrun ?_
  rw [hi]
  exact .singleton hsp (by simp)

/-! ## One write of the load port (20_memory.md R69, R70) -/

theorem hostWrite_of_lt {a : Nat} {s : State} (value : Int) (h : a < s.cfg.memSize) :
    hostWrite a value s = (.ok, s.store a (BitVec.ofInt 8 value)) := by
  simp [hostWrite, State.store, h]

theorem hostWrite_outside {address : Int} {s : State} (value : Int)
    (h : address < 0 ∨ (s.cfg.memSize : Int) ≤ address) : hostWrite address value s = (.loadError, s) :=
  if_neg (by omega)

theorem toNat_ofInt_byte (value : Int) : ((BitVec.ofInt 8 value).toNat : Int) = value % 256 := by
  rw [BitVec.toNat_ofInt]
  omega

/-- Settles O50: an address inside memory is the one of a store, and any other writes nothing. -/
theorem loadPortWritesOneCell : Obligations.LoadPortWritesOneCell := by
  refine fun address value s => ⟨fun hnonneg hlt => ?_, hostWrite_outside value⟩
  obtain ⟨a, rfl⟩ := Int.eq_ofNat_of_zero_le hnonneg
  refine ⟨_, hostWrite_of_lt value (Int.ofNat_lt.1 hlt), ?_, fun b hb => ?_, rfl⟩
  · rw [Int.toNat_natCast, State.store_mem, Memory.read_write, if_pos rfl, toNat_ofInt_byte]
  · rw [State.store_mem, Memory.read_write]
    exact if_neg hb

/-! ## Sequences of writes (20_memory.md R72) -/

theorem hostLoad_cons_of_lt {a : Nat} {s : State} (value : Int) (ws : List (Int × Int)) (h : a < s.cfg.memSize) :
    hostLoad ((↑a, value) :: ws) s = hostLoad ws (s.store a (BitVec.ofInt 8 value)) := by
  rw [hostLoad, hostWrite_of_lt value h]

theorem hostLoad_cons_outside {address : Int} {s : State} (value : Int) (ws : List (Int × Int))
    (h : address < 0 ∨ (s.cfg.memSize : Int) ≤ address) : hostLoad ((address, value) :: ws) s = (.loadError, s) := by
  rw [hostLoad, hostWrite_outside value h]

/-- What every store into memory keeps, every load keeps. -/
theorem hostLoad_preserves {P : State → Prop}
    (hstore : ∀ (s : State) (a : Nat) (v : Byte), a < s.cfg.memSize → P s → P (s.store a v))
    (ws : List (Int × Int)) {s : State} (h : P s) : P (hostLoad ws s).2 := by
  induction ws generalizing s with
  | nil => exact h
  | cons w ws ih =>
    obtain ⟨address, value⟩ := w
    by_cases hin : 0 ≤ address ∧ address < (s.cfg.memSize : Int)
    · obtain ⟨hnonneg, hlt⟩ := hin
      obtain ⟨a, rfl⟩ := Int.eq_ofNat_of_zero_le hnonneg
      have ha : a < s.cfg.memSize := Int.ofNat_lt.1 hlt
      rw [hostLoad_cons_of_lt value ws ha]
      exact ih (hstore s a _ ha h)
    · rw [hostLoad_cons_outside value ws (by omega)]
      exact h

/-- A load changes nothing but memory. -/
theorem hostLoad_frame (ws : List (Int × Int)) (s : State) :
    (hostLoad ws s).2 = { s with mem := (hostLoad ws s).2.mem } :=
  hostLoad_preserves (P := fun t => t = { s with mem := t.mem })
    (fun t a v _ ht => by rw [State.store_mem, State.store, ht]) ws rfl

theorem Inv.store {s : State} {a : Nat} (hinv : Inv s) (ha : a < s.cfg.memSize) (v : Byte) : Inv (s.store a v) where
  params := hinv.params
  memCanonical := Memory.write_wf a v hinv.memCanonical
  memInside c hc := by
    rcases Memory.mem_write hc with rfl | hc
    · exact ha
    · exact hinv.memInside c hc
  pcRange := hinv.pcRange
  flags := hinv.flags
  record := hinv.record
  oneEnd := hinv.oneEnd
  quietDiag := hinv.quietDiag
  quietTrace := hinv.quietTrace

/-- Settles O40: a load is a sequence of stores into memory, and each keeps the invariant. -/
theorem loadingKeepsTheInvariant : Obligations.LoadingKeepsTheInvariant :=
  fun writes _ hinv => hostLoad_preserves (fun _ _ v ha h => h.store ha v) writes hinv

/-! ## Contiguous loads (20_memory.md R72) -/

theorem hostLoad_contiguousFrom_cons_of_lt {a : Nat} {s : State} (v : Int) (vs : List Int)
    (h : a < s.cfg.memSize) :
    hostLoad (contiguousFrom a (v :: vs)) s =
      hostLoad (contiguousFrom (a + 1) vs) (s.store a (BitVec.ofInt 8 v)) :=
  hostLoad_cons_of_lt v _ h

theorem hostLoad_contiguousFrom_cons_of_le {a : Nat} {s : State} (v : Int) (vs : List Int)
    (h : s.cfg.memSize ≤ a) : hostLoad (contiguousFrom a (v :: vs)) s = (.loadError, s) :=
  hostLoad_cons_outside v _ (.inr (Int.ofNat_le.2 h))

/-- A contiguous load from a cell, or from the end of memory, fails exactly when it goes past the end. -/
theorem hostLoad_contiguousFrom_eq_loadError_iff {a : Nat} {s : State} (vs : List Int) (ha : a ≤ s.cfg.memSize) :
    (hostLoad (contiguousFrom a vs) s).1 = .loadError ↔ s.cfg.memSize < a + vs.length := by
  induction vs generalizing a s with
  | nil => simpa [contiguousFrom, hostLoad] using ha
  | cons v vs ih =>
    rw [List.length_cons]
    by_cases hlt : a < s.cfg.memSize
    · rw [hostLoad_contiguousFrom_cons_of_lt v vs hlt, ih (by rw [State.store_cfg]; omega),
        State.store_cfg]
      omega
    · rw [hostLoad_contiguousFrom_cons_of_le v vs (Nat.not_lt.1 hlt)]
      exact iff_of_true rfl (by omega)

/-- A contiguous load leaves the cells before its first and after its last value's. -/
theorem hostLoad_contiguousFrom_read_outside {a b : Nat} {s : State} (vs : List Int)
    (hb : b < a ∨ a + vs.length ≤ b ∨ s.cfg.memSize ≤ b) :
    (hostLoad (contiguousFrom a vs) s).2.mem.read b = s.mem.read b := by
  induction vs generalizing a s with
  | nil => rfl
  | cons v vs ih =>
    rw [List.length_cons] at hb
    by_cases hlt : a < s.cfg.memSize
    · rw [hostLoad_contiguousFrom_cons_of_lt v vs hlt, ih (by rw [State.store_cfg]; omega), State.store_mem,
        Memory.read_write, if_neg (by omega)]
    · rw [hostLoad_contiguousFrom_cons_of_le v vs (Nat.not_lt.1 hlt)]

/-- Each value goes to the cell of its index, as far as memory goes; the writes after it are to other cells. -/
theorem hostLoad_contiguousFrom_read_loaded {a k : Nat} {s : State} {vs : List Int} {v : Int}
    (hv : vs[k]? = some v) (hk : a + k < s.cfg.memSize) :
    (hostLoad (contiguousFrom a vs) s).2.mem.read (a + k) = BitVec.ofInt 8 v := by
  induction vs generalizing a k s with
  | nil => simp at hv
  | cons w vs ih =>
    rw [hostLoad_contiguousFrom_cons_of_lt w vs (by omega)]
    cases k with
    | zero =>
      obtain rfl : w = v := by simpa using hv
      rw [hostLoad_contiguousFrom_read_outside vs (by omega)]
      simp
    | succ k =>
      have hshift : a + (k + 1) = a + 1 + k := by omega
      rw [hshift] at hk ⊢
      exact ih (by simpa using hv) hk

/-- Settles O51: the laws of a contiguous load from a cell on, at cell 0. -/
theorem contiguousLoadFillsFromZero : Obligations.ContiguousLoadFillsFromZero := by
  intro values s
  refine ⟨?_, fun k v hv hk => ?_, fun a ha => ?_, hostLoad_frame _ s⟩
  · simpa [hostLoadContiguous] using hostLoad_contiguousFrom_eq_loadError_iff values s.cfg.memSize.zero_le
  · have hread := hostLoad_contiguousFrom_read_loaded (a := 0) hv (by rwa [Nat.zero_add])
    rw [Nat.zero_add] at hread
    rw [hostLoadContiguous, hread, toNat_ofInt_byte]
  · exact hostLoad_contiguousFrom_read_outside values (.inr (by rwa [Nat.zero_add]))

end Sys2Proof.Machine

/-! # The encoding (30_encoding.md): decoding against encoding, the opcode map, and what an opcode's bits say -/

namespace Sys2Proof

/-! ## Decoding and the opcode map (30_encoding.md R92, R95, R96) -/

/-- Settles O1: an instruction's own bytes decode to it whatever follows, and it is read from no other bytes. -/
theorem decodeInvertsEncode : Obligations.DecodeInvertsEncode := by
  intro bytes i rest
  constructor
  · exact eq_encode_of_decode
  · rintro rfl
    exact decode_encode_append i rest

theorem decode_cons_eq_unassigned_iff {op : Byte} {rest : List Byte} :
    decode (op :: rest) = .reject (.unassigned op) ↔ op ∉ Machine.assignedOpcodes := by
  constructor
  · intro h
    exact (decode_eq_reject h).2
  · intro h
    simp [decode, lookupOpcode_eq_none_iff.2 h]

/-- Settles O3: an opcode is unassigned exactly when the lookup finds no row, and the bytes of each row, written out,
are the encoding of its instruction. -/
theorem opcodeMapIsExactlyTheTable : Obligations.OpcodeMapIsExactlyTheTable := by
  refine ⟨fun op rest => decode_cons_eq_unassigned_iff, fun rest => ⟨?_, ?_⟩,
    fun a rest => ⟨?_, ?_, ?_, ?_, ?_, ?_, ?_⟩, fun a b rest => ⟨?_, ?_, ?_⟩⟩
  · exact decode_encode_append .hlt rest
  · exact decode_encode_append .ret rest
  · exact decode_encode_append (.push a) rest
  · exact decode_encode_append (.pop a) rest
  · exact decode_encode_append (.prn a) rest
  · exact decode_encode_append (.call a) rest
  · exact decode_encode_append (.jmp a) rest
  · exact decode_encode_append (.jeq a) rest
  · exact decode_encode_append (.jne a) rest
  · exact decode_encode_append (.ldi a b) rest
  · exact decode_encode_append (.mul a b) rest
  · exact decode_encode_append (.cmp a b) rest

/-- Settles O2: each word is the encoding of its instruction, with nothing after it. -/
theorem sampleWordsDecode : Obligations.SampleWordsDecode :=
  ⟨decode_encode_append .hlt [], decode_encode_append (.push 7) [], decode_encode_append (.jne 3) [],
    decode_encode_append (.ldi 0 8) [], decode_encode_append (.mul 0 1) []⟩

/-! ## What the bits of an opcode say (30_encoding.md R91, R97) -/

theorem encode_eq_opcode_cons (i : Instr) : encode i = i.opcode :: (encode i).tail := by
  cases i <;> rfl

theorem Instr.length_eq_opcode_topBits (i : Instr) : i.length = (i.opcode >>> 6).toNat + 1 := by
  cases i <;> simp only [length, encode, opcode, List.length_cons, List.length_nil] <;> decide

theorem Instr.length_le_three (i : Instr) : i.length ≤ 3 := by
  cases i <;> simp [Instr.length, encode]

/-- Settles O4: the operand bytes are the encoding without its opcode, and no encoding has more than three bytes. -/
theorem lengthIsInTheTopTwoOpcodeBits : Obligations.LengthIsInTheTopTwoOpcodeBits := by
  intro i
  have hlen : i.length = (i.opcode >>> 6).toNat + 1 := i.length_eq_opcode_topBits
  have hmax : i.length ≤ 3 := i.length_le_three
  have hoperands : (encode i).tail.length = i.length - 1 := List.length_tail
  exact ⟨i.opcode, (encode i).tail, encode_eq_opcode_cons i, by omega, hlen, by omega⟩

theorem Instr.opcode_bit_five_iff (i : Instr) :
    i.opcode.getLsbD 5 = true ↔ (∃ a b, i = .mul a b) ∨ ∃ a b, i = .cmp a b := by
  cases i with
  | mul | cmp => rw [opcode]; exact iff_of_true (by decide) (by simp)
  | _ => rw [opcode]; exact iff_of_false (by decide) (by simp)

theorem Instr.opcode_bit_four_iff (i : Instr) :
    i.opcode.getLsbD 4 = true ↔
      i = .ret ∨ (∃ a, i = .call a) ∨ (∃ a, i = .jmp a) ∨ (∃ a, i = .jeq a) ∨ ∃ a, i = .jne a := by
  cases i with
  | ret | call | jmp | jeq | jne => rw [opcode]; exact iff_of_true (by decide) (by simp)
  | _ => rw [opcode]; exact iff_of_false (by decide) (by simp)

/-- Settles O5: the first byte of an encoding is the instruction's opcode, so its bits are those of the table. -/
theorem opcodeBitsFiveAndFour : Obligations.OpcodeBitsFiveAndFour := by
  intro i op operands h
  obtain ⟨rfl, -⟩ := List.cons.inj ((encode_eq_opcode_cons i).symm.trans h)
  exact ⟨i.opcode_bit_five_iff, i.opcode_bit_four_iff⟩

end Sys2Proof

/-! # The step and the run (40_cycle.md): what is fetched, what a step answers, what it writes to pc, how a run ends -/

namespace Sys2Proof

/-! ## Missing operand bytes, and the length that an opcode tells (30_encoding.md R91; 40_cycle.md R123) -/

theorem decode_opcode_alone :
    ∀ op ∈ [0x45, 0x46, 0x47, 0x50, 0x54, 0x55, 0x56, 0x82, 0xA2, 0xA7],
      decode [op] = .reject (.noOperandA op) := by
  decide

theorem decode_without_operand_b (a : Byte) :
    ∀ op ∈ [0x82, 0xA2, 0xA7], decode [op, a] = .reject (.noOperandB op) := by
  simp only [List.forall_mem_cons]
  exact ⟨rfl, rfl, rfl, nofun⟩

theorem Instr.length_of_mem {i : Instr} {ops : List Byte} {n : Nat} (hop : i.opcode ∈ ops)
    (hbits : ∀ op ∈ ops, (op >>> 6).toNat = n) : i.length = n + 1 := by
  rw [i.length_eq_opcode_topBits, hbits _ hop]

theorem Instr.opcode_mem_assignedOpcodes (i : Instr) : i.opcode ∈ Machine.assignedOpcodes := by
  cases i <;> simp only [opcode] <;> decide

end Sys2Proof

namespace Sys2Proof.Machine

/-! ## What is fetched at the end of memory (40_cycle.md R121, R123) -/

theorem State.bytesFrom_of_memSize_le {s : State} {a : Nat} (k : Nat) (h : s.cfg.memSize ≤ a) :
    s.bytesFrom k a = [] := by
  cases k with
  | zero => rfl
  | succ k => rw [State.bytesFrom, State.peek_of_le h]

/-- The fetch is cut off where memory ends. -/
theorem State.fetched_of_holdsAt_end {s : State} {bs : List Byte} (h : HoldsAt s s.pc bs) (hlen : bs.length ≤ 3)
    (hend : s.cfg.memSize ≤ s.pc + bs.length) : s.fetched = bs := by
  rw [State.fetched, State.bytesFrom_holds h hlen, State.bytesFrom_of_memSize_le _ hend, List.append_nil]

theorem HoldsAt.pair {s : State} {a : Nat} {b c : Byte} (hlt : a + 1 < s.cfg.memSize) (hb : s.mem.read a = b)
    (hc : s.mem.read (a + 1) = c) : HoldsAt s a [b, c] := by
  intro k
  match k with
  | 0 => exact ⟨Nat.lt_of_succ_lt hlt, hb⟩
  | 1 => exact ⟨hlt, hc⟩

/-! ## The step on bytes that are no instruction (40_cycle.md R121 to R126) -/

theorem step_of_reject {s : State} {r : Reject} (hrun : Running s) (h : decode s.fetched = .reject r) :
    step s = .next ((traced s).onReject r) := by
  rw [step_running hrun, h, State.emitTrace_eq]

/-- Settles O10: nothing is fetched, and the decoder finds no opcode. -/
theorem opcodeFetchBeyondMemoryFaults : Obligations.OpcodeFetchBeyondMemoryFaults := by
  intro s hrun hpc
  have hfetched : s.fetched = [] := State.fetched_of_holdsAt_end (HoldsAt.nil s s.pc) (by simp) hpc
  exact step_of_reject hrun (r := .noOpcode) (by rw [hfetched]; rfl)

/-- Settles O11: the fetch ends before the operand byte, and the decoder is short of that byte. -/
theorem operandFetchBeyondMemoryFaults : Obligations.OperandFetchBeyondMemoryFaults := by
  intro s op hrun hop
  refine ⟨fun hmem hend => ?_, fun hmem ha hend => ?_⟩
  · have hfetched : s.fetched = [op] := State.fetched_of_holdsAt_end hop (by simp) hend
    exact step_of_reject hrun (hfetched ▸ decode_opcode_alone op hmem)
  · obtain ⟨-, hread, -⟩ := hop.cons
    have hfetched : s.fetched = [op, s.mem.read (s.pc + 1)] :=
      State.fetched_of_holdsAt_end (.pair ha hread rfl) (by simp) hend
    exact step_of_reject hrun (hfetched ▸ decode_without_operand_b _ op hmem)

/-- The bytes after an unassigned opcode do not matter (30_encoding.md R98). -/
theorem step_of_unassigned {s : State} {op : Byte} (hrun : Running s) (hat : HoldsAt s s.pc [op])
    (hop : op ∉ assignedOpcodes) : step s = .next ((traced s).unassigned op) := by
  refine step_of_reject hrun (r := .unassigned op) ?_
  rw [State.fetched, State.bytesFrom_holds hat (by simp)]
  exact decode_cons_eq_unassigned_iff.2 hop

/-- Settles O12: the `lenient` case of an unassigned opcode. -/
theorem lenientSkipsOneByte : Obligations.LenientSkipsOneByte := by
  intro s op hrun hat hop hpolicy
  rw [step_of_unassigned hrun hat hop, State.unassigned_of_lenient (s := traced s) hpolicy]
  rfl

/-- Settles O13: the `strict` case of an unassigned opcode. -/
theorem strictRaisesUnknownInstruction : Obligations.StrictRaisesUnknownInstruction := by
  intro s op hrun hat hop hpolicy
  rw [step_of_unassigned hrun hat hop, State.unassigned_of_strict (s := traced s) hpolicy]
  rfl

/-! ## The step on an instruction (40_cycle.md R124, R127, R130) -/

/-- Settles O6: the decoder reads the instruction whose bytes memory holds. -/
theorem stepRunsTheInstructionAtPc : Obligations.StepRunsTheInstructionAtPc :=
  fun _ _ => step_of_holdsAt

theorem exec_of_raise {i : Instr} {s : State} {e : Raise} (h : effect i s = .error e) :
    exec i s = .next (s.takeFault (some i.opcode) e) := by
  rw [exec_eq_commit, h, State.commit_error]

/-- A register check that comes first raises whatever the instruction does next (40_cycle.md R124). -/
theorem exec_of_invalid_register {i : Instr} {s : State} {b : Byte} {rest : Fin 8 → Except Raise State}
    (hb : 8 ≤ b.toNat) (hi : effect i s = regIndex b >>= rest) :
    exec i s = .next (invalidRegisterState s i.opcode b) :=
  exec_of_raise (by rw [hi, regIndex_bad hb, error_bind])

theorem mulEffect_regByte (r : Fin 8) (b : Byte) (s : State) :
    mulEffect (regByte r) b s =
      regIndex b >>= fun q => pure ((s.setReg r (aluMul (s.reg r) (s.reg q))).advance 3) := by
  rw [mulEffect, regIndex_regByte, ok_bind]

theorem cmpEffect_regByte (r : Fin 8) (b : Byte) (s : State) :
    cmpEffect (regByte r) b s =
      regIndex b >>= fun q => pure ({ s with fl := compareFlags (s.reg r) (s.reg q) }.advance 3) := by
  rw [cmpEffect, regIndex_regByte, ok_bind]

/-- Settles O17: each of the ten effects begins with the check of `ra`, and those of MUL and CMP go on with that of
`rb`. -/
theorem invalidRegisterIsRaised : Obligations.InvalidRegisterIsRaised := by
  refine ⟨fun a b s ha => ⟨?_, ?_, ?_, ?_, ?_, ?_, ?_, ?_, ?_, ?_⟩, fun r b s hb => ⟨?_, ?_⟩⟩
  · exact exec_of_invalid_register (i := .push a) ha rfl
  · exact exec_of_invalid_register (i := .pop a) ha rfl
  · exact exec_of_invalid_register (i := .prn a) ha rfl
  · exact exec_of_invalid_register (i := .call a) ha rfl
  · exact exec_of_invalid_register (i := .jmp a) ha rfl
  · exact exec_of_invalid_register (i := .jeq a) ha rfl
  · exact exec_of_invalid_register (i := .jne a) ha rfl
  · exact exec_of_invalid_register (i := .ldi a b) ha rfl
  · exact exec_of_invalid_register (i := .mul a b) ha rfl
  · exact exec_of_invalid_register (i := .cmp a b) ha rfl
  · exact exec_of_invalid_register (i := .mul (regByte r) b) hb (mulEffect_regByte r b s)
  · exact exec_of_invalid_register (i := .cmp (regByte r) b) hb (cmpEffect_regByte r b s)

/-- Settles O20: HLT's effect has no guard and writes `halted` and pc alone. -/
theorem hltHalts : Obligations.HltHalts := fun _ =>
  ⟨_, exec_of_effect (i := .hlt) (hltEffect_eq_ok.2 rfl), rfl, rfl, fun _ => rfl, fun _ => rfl, rfl, rfl, rfl, rfl,
    rfl, rfl⟩

/-! ## When a step answers a next state (40_cycle.md R120, R131) -/

theorem step_of_halted {s : State} (h : s.halted = true) : step s = .fault .engineHalted := by
  rw [step, State.cycle, if_pos h]

theorem step_of_faulted {s : State} (hh : s.halted = false) (hf : s.faultRec.faulted = true) :
    step s = .fault .engineFaulted := by
  rw [step, State.cycle, if_neg (by simp [hh]), if_pos hf]

theorem exec_answers_next (i : Instr) (s : State) : ∃ t, exec i s = .next t := by
  cases h : effect i s with
  | ok t => exact ⟨t, exec_of_effect h⟩
  | error e => exact ⟨_, exec_of_raise h⟩

/-- A running engine always takes its step. -/
theorem step_answers_next {s : State} (hrun : Running s) : ∃ t, step s = .next t := by
  cases hdec : decode s.fetched with
  | instr i rest =>
    obtain ⟨t, ht⟩ := exec_answers_next i s.emitTrace
    exact ⟨t, by rw [step_running hrun, hdec]; exact ht⟩
  | reject r => exact ⟨_, step_of_reject hrun hdec⟩

/-- Settles O7: a running engine takes its step, and only a running one does. -/
theorem stepsExactlyWhileRunning : Obligations.StepsExactlyWhileRunning :=
  fun _ => ⟨⟨fun ⟨_, h⟩ => (step_cases h).1, step_answers_next⟩, step_of_halted, step_of_faulted⟩

/-! ## What a step writes to pc (40_cycle.md R128) -/

theorem regByte_injective {q r : Fin 8} (h : regByte q = regByte r) : q = r :=
  Except.ok.inj ((regIndex_regByte q).symm.trans (regIndex_eq_ok.2 h))

/-- The instructions of two or three bytes that do not transfer control end at the byte after them. -/
theorem Completes.pc_of_sequential {s t : State} {i : Instr} (h : Completes s i t)
    (hop : i.opcode ∈ [0x82, 0xA2, 0xA7] ∨ i.opcode ∈ [0x47, 0x45, 0x46]) : t.pc = s.pc + i.length := by
  cases h with
  | ret | call | jmp | jeqTaken | jneTaken => exact absurd hop (by simp only [Instr.opcode]; decide)
  | _ => rfl

/-- A step that does not fault completed the instruction that memory holds at pc. -/
theorem effect_of_step {s t : State} {j : Instr} (h : step s = .next t) (hok : t.faultRec.faulted = false)
    (hj : HoldsAt s s.pc (encode j)) : effect j (traced s) = .ok t := by
  rw [step_of_holdsAt (step_outcome h).1 hj] at h
  rcases exec_cases h with heffect | ⟨e, -, rfl⟩
  · exact heffect
  · exact nomatch hok

/-- The rows of the opcodes that transfer control through the register of their operand byte. -/
theorem step_pc_of_register_operand {s t : State} {r : Fin 8} (h : step s = .next t)
    (hok : t.faultRec.faulted = false) (hend : s.pc + (s.mem.read s.pc >>> 6).toNat < s.cfg.memSize)
    (hr : s.mem.read (s.pc + 1) = regByte r) :
    (s.mem.read s.pc = 0x50 → t.pc = (if r = 7 then s.sp - 1 else s.reg r).toNat) ∧
    (s.mem.read s.pc = 0x54 → t.pc = (s.reg r).toNat) ∧
    (s.mem.read s.pc = 0x55 → t.pc = if s.fl.getLsbD 0 = true then (s.reg r).toNat else s.pc + 2) ∧
    (s.mem.read s.pc = 0x56 → t.pc = if s.fl.getLsbD 0 = false then (s.reg r).toNat else s.pc + 2) := by
  have hcompletes {j : Instr} {op : Byte} (hop : s.mem.read s.pc = op) (hbits : (op >>> 6).toNat = 1)
      (hj : encode j = [op, regByte r]) : effect j (traced s) = .ok t := by
    rw [hop, hbits] at hend
    exact effect_of_step h hok (hj ▸ .pair hend hop hr)
  refine ⟨fun hop => ?_, fun hop => ?_, fun hop => ?_, fun hop => ?_⟩
  · obtain ⟨q, hq, -, -, rfl⟩ := callEffect_eq_ok.1 (hcompletes (j := .call (regByte r)) hop rfl rfl)
    obtain rfl := regByte_injective hq
    rfl
  · obtain ⟨q, hq, rfl⟩ := jmpEffect_eq_ok.1 (hcompletes (j := .jmp (regByte r)) hop rfl rfl)
    obtain rfl := regByte_injective hq
    rfl
  · obtain ⟨q, hq, rfl⟩ := branchEffect_eq_ok.1 (hcompletes (j := .jeq (regByte r)) hop rfl rfl)
    obtain rfl := regByte_injective hq
    exact apply_ite State.pc _ _ _
  · obtain ⟨q, hq, rfl⟩ := branchEffect_eq_ok.1 (hcompletes (j := .jne (regByte r)) hop rfl rfl)
    obtain rfl := regByte_injective hq
    simp [State.flagE, apply_ite State.pc]

/-- Settles O14: an instruction that completes is the one whose bytes memory holds at pc, a fault leaves pc, and a
skipped opcode is in no row but the last. -/
theorem stepWritesPcByTheTable : Obligations.StepWritesPcByTheTable := by
  intro s t hrun h
  obtain ⟨-, hout⟩ := step_outcome h
  cases hout with
  | @completes i _ bytes run =>
    obtain ⟨hlt, hop⟩ := bytes.opcode
    have hok : t.faultRec.faulted = false := run.faultRec ▸ hrun.2
    have hlen : i.length = (s.mem.read s.pc >>> 6).toNat + 1 := hop ▸ i.length_eq_opcode_topBits
    have hend : s.pc + (s.mem.read s.pc >>> 6).toNat < s.cfg.memSize := by
      have := bytes.end_le
      omega
    refine ⟨fun hfault => absurd (hok.symm.trans hfault) nofun,
      fun _ => ⟨fun hhlt => ?_, fun hmem => ?_, fun hmem => ?_, fun hret => ?_,
        fun r hr => step_pc_of_register_operand h hok hend hr, fun hun => ?_⟩⟩
    · rw [hltEffect_eq_ok.1 (effect_of_step (j := .hlt) h hok (.singleton hlt hhlt))]
      rfl
    · rw [hop] at hmem
      rw [run.pc_of_sequential (.inl hmem), Instr.length_of_mem (n := 2) hmem (by decide)]
      rfl
    · rw [hop] at hmem
      rw [run.pc_of_sequential (.inr hmem), Instr.length_of_mem (n := 1) hmem (by decide)]
      rfl
    · obtain ⟨-, rfl⟩ := retEffect_eq_ok.1 (effect_of_step (j := .ret) h hok (.singleton hlt hret))
      rfl
    · exact absurd (hop ▸ i.opcode_mem_assignedOpcodes) hun
  | faults _ => exact ⟨fun _ => rfl, nofun⟩
  | skips _ hop _ =>
    refine ⟨fun hfault => absurd (hrun.2.symm.trans hfault) nofun, fun _ => ?_⟩
    simp only [assignedOpcodes, List.mem_cons, List.not_mem_nil, or_false, not_or, BitVec.ofNat_eq_ofNat] at hop
    simp [hop]

/-! ## How a run ends (40_cycle.md R131, R132) -/

theorem hostRun_of_halted {s : State} (limit : Nat) (h : s.halted = true) : hostRun limit s = (.halted, s) := by
  unfold hostRun
  rw [if_pos h]

theorem hostRun_of_faulted {s : State} (limit : Nat) (hh : s.halted = false) (hf : s.faultRec.faulted = true) :
    hostRun limit s = (.fault s.faultRec, s) := by
  unfold hostRun
  rw [if_neg (by simp [hh]), if_pos hf]

theorem run_succ_of_step {M : Host.Core} {s t : M.State} (k : Nat) (hstep : M.step s = .next t) :
    M.run (k + 1) s = M.run k t := by
  rw [Host.Core.run, hstep]

/-- Settles O54: the two tests that a run makes before it takes a step. -/
theorem runOfAStoppedEngineReturnsAtOnce : Obligations.RunOfAStoppedEngineReturnsAtOnce :=
  fun limit _ => ⟨hostRun_of_halted limit, hostRun_of_faulted limit⟩

/-- Settles O52, by the recursion of the run: a stopped engine ends it at once, and a running one takes a step and
leaves the rest of the limit to the run from there. -/
theorem runEndsAsItAnswers : Obligations.RunEndsAsItAnswers := by
  intro limit s t o h
  fun_induction hostRun limit s with
  | case1 limit s hhalted =>
    obtain ⟨rfl, rfl⟩ := Prod.mk.inj h
    exact ⟨fun _ => hhalted, nofun, nofun⟩
  | case2 limit s hhalted hfaulted =>
    obtain ⟨rfl, rfl⟩ := Prod.mk.inj h
    have hnot : s.halted = false := Bool.eq_false_of_not_eq_true hhalted
    exact ⟨nofun, fun f hf => RunOutcome.fault.inj hf ▸ ⟨hnot, rfl, hfaulted⟩, nofun⟩
  | case3 s hhalted hfaulted =>
    obtain ⟨rfl, rfl⟩ := Prod.mk.inj h
    exact ⟨nofun, nofun,
      fun _ => ⟨⟨Bool.eq_false_of_not_eq_true hhalted, Bool.eq_false_of_not_eq_true hfaulted⟩, rfl⟩⟩
  | case4 s _ _ k u hstep ih =>
    rw [run_succ_of_step (M := core) k hstep]
    exact ih h
  | case5 s hhalted hfaulted k r hstop | case6 s hhalted hfaulted k r hstop =>
    obtain ⟨u, hu⟩ :=
      step_answers_next ⟨Bool.eq_false_of_not_eq_true hhalted, Bool.eq_false_of_not_eq_true hfaulted⟩
    exact nomatch hstop.symm.trans hu

end Sys2Proof.Machine

/-! # Data movement and output: what LDI, PRN and MUL of named registers give, and what a step puts on the ports -/

namespace Sys2Proof.Machine

/-! ## LDI, PRN and MUL of named registers (41_data_io.md R151, R153; 42_alu.md R172) -/

theorem exec_ldi_regByte (r : Fin 8) (imm : Byte) (s : State) :
    exec (.ldi (regByte r) imm) s = .next ((s.setReg r imm).advance 3) :=
  exec_of_effect (ldiEffect_eq_ok.2 ⟨r, rfl, rfl⟩)

theorem exec_prn_regByte (r : Fin 8) (s : State) :
    exec (.prn (regByte r)) s = .next ((s.emitOut (s.reg r)).advance 2) :=
  exec_of_effect (prnEffect_eq_ok.2 ⟨r, rfl, rfl⟩)

theorem exec_mul_regByte (a b : Fin 8) (s : State) :
    exec (.mul (regByte a) (regByte b)) s = .next ((s.setReg a (aluMul (s.reg a) (s.reg b))).advance 3) :=
  exec_of_effect (mulEffect_eq_ok.2 ⟨a, b, rfl, rfl, rfl⟩)

theorem aluMul_toNat (x y : Byte) : (aluMul x y).toNat = x.toNat * y.toNat % 256 :=
  BitVec.toNat_ofNat _ _

/-- Settles O21: the register write and the advance are the whole effect. -/
theorem ldiLoadsItsImmediate : Obligations.LdiLoadsItsImmediate := by
  intro r imm s
  refine ⟨_, exec_ldi_regByte r imm s, ?_, fun q hq => ?_, rfl, fun _ => rfl, rfl, rfl, rfl, rfl, rfl, rfl, rfl⟩
  · simp
  · simp [hq]

/-- Settles O22: the emission and the advance are the whole effect. -/
theorem prnOutputsItsRegister : Obligations.PrnOutputsItsRegister :=
  fun r s => ⟨_, exec_prn_regByte r s, rfl, rfl, fun _ => rfl, fun _ => rfl, rfl, rfl, rfl, rfl, rfl, rfl⟩

/-- Settles O42: the second LDI leaves the first's register, so MUL reads both immediates. -/
theorem loadLoadMultiply : Obligations.LoadLoadMultiply := by
  intro r q v w s hne
  refine ⟨_, _, _, exec_ldi_regByte r v s, exec_ldi_regByte q w _, exec_mul_regByte r q _, ?_, ?_, rfl⟩
  · simp [hne, aluMul_toNat]
  · simp [hne.symm]

/-! ## The output and the diagnostic port (41_data_io.md R154; 60_exceptions.md R243, R258) -/

/-- Only PRN writes to the output port. -/
theorem Completes.outputs {s t : State} {i : Instr} (h : Completes s i t) :
    t.outputs = s.outputs ∨ ∃ r : Fin 8, i = .prn (regByte r) ∧ t.outputs = s.outputs ++ [s.reg r] := by
  cases h with
  | prn r => exact .inr ⟨r, rfl, rfl⟩
  | _ => exact .inl rfl

/-- Settles O36: of the three ends of a step only a completed PRN outputs, the register its own byte names, and
only a skip emits a diagnostic. -/
theorem portsCarryOnlyTheirRecords : Obligations.PortsCarryOnlyTheirRecords := by
  intro s t h
  obtain ⟨-, hout⟩ := step_outcome h
  cases hout with
  | completes bytes run =>
    refine ⟨?_, .inl run.sameRest.diags⟩
    rcases run.outputs with hsame | ⟨r, rfl, hemit⟩
    · exact .inl hsame
    · exact .inr ⟨r, bytes.opcode.2, (bytes.read_of_getElem? (k := 1) rfl).2, hemit⟩
  | faults _ => exact ⟨.inl rfl, .inl rfl⟩
  | skips _ hop hpol => exact ⟨.inl rfl, .inr ⟨hpol, hop, rfl⟩⟩

end Sys2Proof.Machine

/-! # The ALU: what MUL and CMP of named registers give, and the branch after a CMP -/

namespace Sys2Proof.Machine

/-! ## The flags of a compare (42_alu.md R174, R175) -/

theorem compareFlags_self (x : Byte) : compareFlags x x = 0x01 := if_pos rfl

theorem compareFlags_of_gt {x y : Byte} (h : x.toNat > y.toNat) : compareFlags x y = 0x02 := by
  rw [compareFlags, if_neg h.ne', if_pos h]
  rfl

theorem compareFlags_of_lt {x y : Byte} (h : x.toNat < y.toNat) : compareFlags x y = 0x04 := by
  rw [compareFlags, if_neg h.ne, if_neg h.not_gt]
  rfl

/-- The E bit of a compare is the equality of the two values. -/
theorem compareFlags_bit_zero (x y : Byte) : (compareFlags x y).getLsbD 0 = decide (x = y) := by
  rcases Nat.lt_trichotomy x.toNat y.toNat with hlt | heq | hgt
  · have hne : x ≠ y := fun h => hlt.ne (congrArg BitVec.toNat h)
    rw [compareFlags_of_lt hlt, decide_eq_false hne]
    rfl
  · obtain rfl := BitVec.eq_of_toNat_eq heq
    rw [compareFlags_self, decide_eq_true rfl]
    rfl
  · have hne : x ≠ y := fun h => hgt.ne' (congrArg BitVec.toNat h)
    rw [compareFlags_of_gt hgt, decide_eq_false hne]
    rfl

@[simp] theorem State.reg_with_fl (s : State) (fl : Byte) (j : Fin 8) : { s with fl := fl }.reg j = s.reg j := rfl

/-- After a CMP the E bit says whether the two registers were equal. -/
theorem flagE_compare (a b : Fin 8) (s : State) :
    ({ s with fl := compareFlags (s.reg a) (s.reg b) }.advance 3).flagE = decide (s.reg a = s.reg b) :=
  compareFlags_bit_zero _ _

/-! ## CMP and the branches of named registers (42_alu.md R174; 44_control_transfer.md R214, R215) -/

theorem exec_cmp_regByte (a b : Fin 8) (s : State) :
    exec (.cmp (regByte a) (regByte b)) s =
      .next ({ s with fl := compareFlags (s.reg a) (s.reg b) }.advance 3) :=
  exec_of_effect (cmpEffect_eq_ok.2 ⟨a, b, rfl, rfl, rfl⟩)

theorem exec_jeq_regByte (r : Fin 8) (s : State) :
    exec (.jeq (regByte r)) s = .next (if s.flagE then s.jumpTo (s.reg r) else s.advance 2) :=
  exec_of_effect (branchEffect_eq_ok.2 ⟨r, rfl, rfl⟩)

theorem exec_jne_regByte (r : Fin 8) (s : State) :
    exec (.jne (regByte r)) s = .next (if !s.flagE then s.jumpTo (s.reg r) else s.advance 2) :=
  exec_of_effect (branchEffect_eq_ok.2 ⟨r, rfl, rfl⟩)

/-! ## The statements of 42_alu.md -/

/-- Settles O43: the E bit that CMP leaves is the equality of the registers, and a branch that falls through is 2
bytes after the CMP's 3. -/
theorem compareThenBranch : Obligations.CompareThenBranch := by
  intro a b r s
  refine ⟨_, exec_cmp_regByte a b s, ⟨_, exec_jeq_regByte r _, ?_⟩, ⟨_, exec_jne_regByte r _, ?_⟩⟩
  · by_cases heq : s.reg a = s.reg b <;> simp [flagE_compare, heq]
  · by_cases heq : s.reg a = s.reg b <;> simp [flagE_compare, heq]

/-- Settles O23: the register write and the advance are the whole effect. -/
theorem mulKeepsTheLowByteOfTheProduct : Obligations.MulKeepsTheLowByteOfTheProduct := by
  intro ra rb s
  refine ⟨_, exec_mul_regByte ra rb s, ?_, fun q hq => ?_, rfl, fun _ => rfl, rfl, rfl, rfl, rfl, rfl, rfl, rfl⟩
  · simp [aluMul_toNat]
  · simp [hq]

/-- Settles O24: the write of FL and the advance are the whole effect. -/
theorem cmpSetsExactlyOneFlag : Obligations.CmpSetsExactlyOneFlag := by
  intro ra rb s
  refine ⟨_, exec_cmp_regByte ra rb s, fun heq => ?_, compareFlags_of_gt, compareFlags_of_lt, rfl, fun _ => rfl,
    fun _ => rfl, rfl, rfl, rfl, rfl, rfl, rfl⟩
  rw [State.advance_fl, heq, compareFlags_self]

end Sys2Proof.Machine

/-! # The stack: what PUSH and POP of named registers give, and where a stack access faults -/

namespace Sys2Proof.Machine

/-! ## The stack pointer and the cells it addresses (43_stack.md R190) -/

@[simp] theorem State.incSp_reg (s : State) (j : Fin 8) :
    s.incSp.reg j = if j = spReg then s.sp + 1 else s.reg j :=
  State.setReg_reg s spReg (s.sp + 1) j

@[simp] theorem State.incSp_mem (s : State) : s.incSp.mem = s.mem := rfl

theorem Memory.read_write_of_ne {m : Memory} {a b : Nat} {v : Byte} (h : b ≠ a) :
    (m.write a v).read b = m.read b := by
  rw [Memory.read_write, if_neg h]

/-- The cell that a PUSH stores to is not the one SP addressed before it, also where SP wraps
(43_stack.md R190). The literal is in the form `simp` gives it. -/
theorem toNat_ne_toNat_sub_one (b : Byte) : b.toNat ≠ (b - 1#8).toNat := by
  bv_omega

/-! ## A stack access beyond memory (60_exceptions.md R246 point 7) -/

theorem pushEffect_eq_error {r : Fin 8} {s : State} (hsp : s.cfg.memSize ≤ (s.sp - 1).toNat) :
    pushEffect (regByte r) s = .error (.memoryFault (s.sp - 1).toNat) := by
  rw [pushEffect, regIndex_regByte, ok_bind, State.decSp_error hsp, error_bind]

theorem popEffect_eq_error {r : Fin 8} {s : State} (hsp : s.cfg.memSize ≤ s.sp.toNat) :
    popEffect (regByte r) s = .error (.memoryFault s.sp.toNat) := by
  rw [popEffect, regIndex_regByte, ok_bind, State.memRead_error hsp, error_bind]

theorem retEffect_eq_error {s : State} (hsp : s.cfg.memSize ≤ s.sp.toNat) :
    retEffect s = .error (.memoryFault s.sp.toNat) := by
  rw [retEffect, State.memRead_error hsp, error_bind]

/-- The return address is checked before the SP (44_control_transfer.md R211). -/
theorem callEffect_eq_error_of_return {r : Fin 8} {s : State} (hret : s.cfg.memSize ≤ s.pc + 2) :
    callEffect (regByte r) s = .error (.memoryFault (s.pc + 2)) := by
  simp only [callEffect, regIndex_regByte, ok_bind, State.checkAddr_error hret, error_bind]

theorem callEffect_eq_error_of_sp {r : Fin 8} {s : State} (hret : s.pc + 2 < s.cfg.memSize)
    (hsp : s.cfg.memSize ≤ (s.sp - 1).toNat) :
    callEffect (regByte r) s = .error (.memoryFault (s.sp - 1).toNat) := by
  simp only [callEffect, regIndex_regByte, ok_bind, State.checkAddr_ok hret, State.decSp_error hsp, error_bind]

/-- Settles O18: each effect raises at its first access beyond memory, so its commit is the fault entry. -/
theorem stackAccessBeyondMemoryFaults : Obligations.StackAccessBeyondMemoryFaults := by
  refine fun r s => ⟨fun hsp => ?_, fun hsp => ⟨?_, ?_⟩, fun hret => ?_, fun hret hsp => ?_⟩
  · exact exec_of_raise (i := .push _) (pushEffect_eq_error hsp)
  · exact exec_of_raise (i := .pop _) (popEffect_eq_error hsp)
  · exact exec_of_raise (i := .ret) (retEffect_eq_error hsp)
  · exact exec_of_raise (i := .call _) (callEffect_eq_error_of_return hret)
  · exact exec_of_raise (i := .call _) (callEffect_eq_error_of_sp hret hsp)

/-! ## PUSH and POP of named registers (43_stack.md R191, R193) -/

theorem exec_push_regByte {r : Fin 8} {s : State} (hsp : (s.sp - 1).toNat < s.cfg.memSize) :
    exec (.push (regByte r)) s =
      .next (((s.setReg spReg (s.sp - 1)).store (s.sp - 1).toNat
        (if r = spReg then s.sp - 1 else s.reg r)).advance 2) :=
  exec_of_effect (pushEffect_eq_ok.2 ⟨r, rfl, hsp, rfl⟩)

theorem exec_pop_regByte {r : Fin 8} {s : State} (hsp : s.sp.toNat < s.cfg.memSize) :
    exec (.pop (regByte r)) s = .next ((s.setReg r (s.mem.read s.sp.toNat)).incSp.advance 2) :=
  exec_of_effect (popEffect_eq_ok.2 ⟨r, rfl, hsp, rfl⟩)

/-- Settles O25: the SP write, the store below the old SP and the advance are the whole effect. -/
theorem pushStoresBelowTheStackPointer : Obligations.PushStoresBelowTheStackPointer := by
  intro r s hsp
  refine ⟨_, exec_push_regByte hsp, ?_, fun q hq => ?_, ?_, fun a ha => ?_, rfl, rfl, rfl, rfl, rfl, rfl, rfl, rfl⟩
  · simp
  · simp [hq]
  · simp
  · exact Memory.read_write_of_ne ha

/-- Settles O26: the register write, the increment of the SP it leaves and the advance are the whole effect. -/
theorem popLoadsFromTheStackPointer : Obligations.PopLoadsFromTheStackPointer := by
  intro r s hsp
  refine ⟨_, exec_pop_regByte hsp, fun hr => ⟨?_, ?_⟩, fun hr => ?_, fun q hqr hq => ?_, fun _ => rfl, rfl, rfl, rfl,
    rfl, rfl, rfl, rfl, rfl⟩
  · simp [hr]
  · simp [hr.symm]
  · simp [hr]
  · simp [hqr, hq]

/-! ## PUSH and POP in sequence (43_stack.md R194) -/

/-- Settles O44: POP reads back the cell PUSH stored to, and its increment undoes the decrement; of R7 the popped
value is the decremented SP, which the increment restores too. -/
theorem pushThenPopIsIdentity : Obligations.PushThenPopIsIdentity := by
  intro r s hsize
  have hbyte : ∀ b : Byte, b.toNat < s.cfg.memSize := fun b => hsize ▸ b.isLt
  refine ⟨_, _, exec_push_regByte (hbyte _), exec_pop_regByte (hbyte _), fun q => ?_, rfl, ?_, fun a ha => ?_⟩
  · by_cases hq : q = 7
    · by_cases hr : r = 7
      · simp [hq, hr]
      · simp [hq, Ne.symm hr]
    · by_cases hqr : q = r
      · simp [hq, ← hqr]
      · simp [hq, hqr]
  · simp
  · exact Memory.read_write_of_ne ha

/-- Settles O45: the second PUSH stores one cell below the first, so the first POP reads the second value and leaves
SP at the first. -/
theorem stackIsLastInFirstOut : Obligations.StackIsLastInFirstOut := by
  intro r q x y s hsize hr hq hx hy hxy
  have hbyte : ∀ b : Byte, b.toNat < s.cfg.memSize := fun b => hsize ▸ b.isLt
  refine ⟨_, _, _, _, exec_push_of_ne hr (hbyte _), exec_push_of_ne hq (hbyte _), exec_pop_regByte (hbyte _),
    exec_pop_regByte (hbyte _), ?_, ?_, ?_⟩
  · simp [hq, hx, hxy]
  · simp [hy, hx.symm, toNat_ne_toNat_sub_one, -BitVec.toNat_sub]
  · simp [hx.symm, hy.symm]

end Sys2Proof.Machine

/-! # Control transfer: what CALL, RET, JMP, JEQ and JNE of named registers give, and the return from a CALL -/

namespace Sys2Proof.Machine

/-! ## CALL, RET and JMP of named registers (44_control_transfer.md R211 to R213) -/

theorem exec_call_regByte {r : Fin 8} {s : State} (hret : s.pc + 2 < s.cfg.memSize)
    (hsp : (s.sp - 1).toNat < s.cfg.memSize) :
    exec (.call (regByte r)) s =
      .next (((s.setReg spReg (s.sp - 1)).store (s.sp - 1).toNat (BitVec.ofNat 8 (s.pc + 2))).jumpTo
        (if r = spReg then s.sp - 1 else s.reg r)) :=
  exec_of_effect (callEffect_eq_ok.2 ⟨r, rfl, hret, hsp, rfl⟩)

theorem exec_ret {s : State} (hsp : s.sp.toNat < s.cfg.memSize) :
    exec .ret s = .next (s.jumpTo (s.mem.read s.sp.toNat)).incSp :=
  exec_of_effect (retEffect_eq_ok.2 ⟨hsp, rfl⟩)

theorem exec_jmp_regByte (r : Fin 8) (s : State) : exec (.jmp (regByte r)) s = .next (s.jumpTo (s.reg r)) :=
  exec_of_effect (jmpEffect_eq_ok.2 ⟨r, rfl, rfl⟩)

/-- A return address inside memory fits the byte that CALL stores. -/
theorem toNat_returnAddress {s : State} (h : s.pc + 2 < 256) : (BitVec.ofNat 8 (s.pc + 2)).toNat = s.pc + 2 := by
  rw [BitVec.toNat_ofNat, Nat.mod_eq_of_lt h]

/-! ## A subroutine's return, and a target beyond memory (44_control_transfer.md R210, R217) -/

/-- Settles O46: RET reads the return address from the cell CALL stored it in, and its increment undoes CALL's
decrement. -/
theorem callThenReturn : Obligations.CallThenReturn := by
  intro r s hsize hret
  have hbyte : ∀ {t : State} (b : Byte), t.cfg.memSize = 256 → b.toNat < t.cfg.memSize := fun b h => h ▸ b.isLt
  refine ⟨_, exec_call_regByte (hsize ▸ hret) (hbyte _ hsize), fun u husize husp hread => ?_⟩
  refine ⟨_, exec_ret (hbyte _ husize), ?_, ?_⟩
  · have hcell : u.mem.read u.sp.toNat = BitVec.ofNat 8 (s.pc + 2) := by
      rw [husp, hread]
      simp
    exact (congrArg BitVec.toNat hcell).trans (toNat_returnAddress hret)
  · simp [husp]

/-- Settles O47: JMP has no guard on its target, and the step from there is the faulting opcode fetch of O10. -/
theorem jumpBeyondMemoryFaultsAtTheFetch : Obligations.JumpBeyondMemoryFaultsAtTheFetch :=
  fun r s hrun htarget =>
    ⟨_, exec_jmp_regByte r s, rfl, hrun, opcodeFetchBeyondMemoryFaults (s.jumpTo (s.reg r)) hrun htarget⟩

/-! ## The transfers and their frames (44_control_transfer.md R211 to R215) -/

/-- Settles O27: the SP write, the store of the return address below the old SP and the jump are the whole effect. -/
theorem callPushesTheReturnAddress : Obligations.CallPushesTheReturnAddress := by
  intro r s hlegal hret hsp
  refine ⟨_, exec_call_regByte hret hsp, ?_, fun q hq => ?_, ?_, fun a ha => ?_, rfl, rfl, rfl, rfl, rfl, rfl, rfl,
    rfl⟩
  · simp
  · simp [hq]
  · simpa using toNat_returnAddress (hret.trans_le hlegal.2)
  · exact Memory.read_write_of_ne ha

/-- Settles O28: the jump and the increment of SP are the whole effect. -/
theorem retPopsThePc : Obligations.RetPopsThePc := by
  intro s hsp
  refine ⟨_, exec_ret hsp, rfl, ?_, fun q hq => ?_, fun _ => rfl, rfl, rfl, rfl, rfl, rfl, rfl, rfl⟩
  · simp
  · simp [hq]

/-- Settles O29: the jump is the whole effect. -/
theorem jmpJumpsToItsRegister : Obligations.JmpJumpsToItsRegister :=
  fun r s => ⟨_, exec_jmp_regByte r s, rfl, fun _ => rfl, fun _ => rfl, rfl, rfl, rfl, rfl, rfl, rfl, rfl⟩

/-- A branch writes pc alone, whether it is taken or not. -/
theorem branch_eq_with_pc (taken : Bool) (s : State) (v : Byte) :
    (if taken then s.jumpTo v else s.advance 2) = { s with pc := if taken then v.toNat else s.pc + 2 } := by
  cases taken <;> rfl

/-- Settles O30: a branch taken on the E bit, which writes pc alone. -/
theorem jeqJumpsWhenEqualIsSet : Obligations.JeqJumpsWhenEqualIsSet := by
  intro r s
  refine ⟨_, exec_jeq_regByte r s, ?_⟩
  rw [branch_eq_with_pc]
  exact ⟨rfl, fun _ => rfl, fun _ => rfl, rfl, rfl, rfl, rfl, rfl, rfl, rfl⟩

/-- Settles O31: a branch taken on the clear E bit, which writes pc alone. -/
theorem jneJumpsWhenEqualIsClear : Obligations.JneJumpsWhenEqualIsClear := by
  intro r s
  refine ⟨_, exec_jne_regByte r s, ?_⟩
  rw [branch_eq_with_pc]
  refine ⟨?_, fun _ => rfl, fun _ => rfl, rfl, rfl, rfl, rfl, rfl, rfl, rfl⟩
  simp [State.flagE]

end Sys2Proof.Machine

/-! # Exceptions: what a step raises, its trace record, and runs under a step limit -/

namespace Sys2Proof.Machine

/-! ## The steps of a run (60_exceptions.md R259, R262) -/

theorem hostRun_zero {s : State} (hrun : Running s) : hostRun 0 s = (.stepLimit, s) := by
  rw [hostRun, if_neg (by simp [hrun.1]), if_neg (by simp [hrun.2])]

theorem hostRun_succ {s t : State} (k : Nat) (h : step s = .next t) : hostRun (k + 1) s = hostRun k t := by
  obtain ⟨hhalted, hfaulted⟩ := (step_cases h).1
  rw [hostRun, if_neg (by simp [hhalted]), if_neg (by simp [hfaulted]), h]

/-- Induction on the steps of a run, in the cases that a run has: the engine is halted, or faulted, or runs with no
limit left, or takes its step. -/
theorem hostRun_induction {P : Nat → State → Prop}
    (halted : ∀ limit s, s.halted = true → P limit s)
    (faulted : ∀ limit s, s.halted = false → s.faultRec.faulted = true → P limit s)
    (stopped : ∀ s, Running s → P 0 s)
    (steps : ∀ k s t, step s = .next t → P k t → P (k + 1) s) (limit : Nat) (s : State) : P limit s := by
  fun_induction hostRun limit s with
  | case1 limit s hhalted => exact halted limit s hhalted
  | case2 limit s hhalted hfaulted => exact faulted limit s (Bool.eq_false_of_not_eq_true hhalted) hfaulted
  | case3 s hhalted hfaulted =>
    exact stopped s ⟨Bool.eq_false_of_not_eq_true hhalted, Bool.eq_false_of_not_eq_true hfaulted⟩
  | case4 s _ _ k t hstep ih => exact steps k s t hstep ih
  | case5 s hhalted hfaulted k r hstop | case6 s hhalted hfaulted k r hstop =>
    obtain ⟨t, ht⟩ :=
      step_answers_next ⟨Bool.eq_false_of_not_eq_true hhalted, Bool.eq_false_of_not_eq_true hfaulted⟩
    exact nomatch hstop.symm.trans ht

/-- Settles O53, by induction on the steps of the run of limit `m`. -/
theorem runResumesAfterTheStepLimit : Obligations.RunResumesAfterTheStepLimit := by
  intro m n s t o h
  induction m, s using hostRun_induction with
  | halted m s hhalted =>
    rw [hostRun_of_halted m hhalted] at h
    obtain ⟨rfl, rfl⟩ := Prod.mk.inj h
    exact ⟨nofun, fun _ => hostRun_of_halted _ hhalted⟩
  | faulted m s hhalted hfaulted =>
    rw [hostRun_of_faulted m hhalted hfaulted] at h
    obtain ⟨rfl, rfl⟩ := Prod.mk.inj h
    exact ⟨nofun, fun _ => hostRun_of_faulted _ hhalted hfaulted⟩
  | stopped s hrun =>
    rw [hostRun_zero hrun] at h
    obtain ⟨rfl, rfl⟩ := Prod.mk.inj h
    exact ⟨fun _ => by rw [Nat.zero_add], fun hne => absurd rfl hne⟩
  | steps k s u hstep ih =>
    rw [hostRun_succ k hstep] at h
    rw [Nat.add_right_comm, hostRun_succ (k + n) hstep]
    exact ih h

/-! ## Steps and runs of engines that differ in their tracing alone (60_exceptions.md R256) -/

/-- `s` with another `TRACE_EN` and other trace records: what `SameButTrace` relates to `s` (`sameButTrace_iff`). -/
def State.retrace (s : State) (en : Bool) (records : List Trace) : State :=
  { s with cfg := { s.cfg with traceEn := en }, traces := records }

theorem sameButTrace_iff {s t : State} : SameButTrace s t ↔ ∃ en records, t = s.retrace en records := by
  constructor
  · exact fun h => ⟨_, _, h⟩
  · rintro ⟨en, records, rfl⟩
    rfl

section
variable (s : State) (en : Bool) (records : List Trace)

theorem State.decSp_retrace : (s.retrace en records).decSp = (State.retrace · en records) <$> s.decSp := by
  simp only [State.decSp, map_bind, map_pure]
  rfl

theorem State.memWrite_retrace (a : Nat) (v : Byte) :
    (s.retrace en records).memWrite a v = (State.retrace · en records) <$> s.memWrite a v := by
  simp only [State.memWrite, map_bind, map_pure]
  rfl

/-- No effect reads or writes what tracing alone differs in. -/
theorem effect_retrace (i : Instr) :
    effect i (s.retrace en records) = (State.retrace · en records) <$> effect i s := by
  cases i with
  | hlt => rfl
  | ret | pop | prn | jmp | ldi | mul | cmp =>
    simp only [effect, retEffect, popEffect, prnEffect, jmpEffect, ldiEffect, mulEffect, cmpEffect, map_bind, map_pure]
    rfl
  | push | call =>
    simp only [effect, pushEffect, callEffect, State.decSp_retrace, State.memWrite_retrace, bind_map_left, map_bind,
      map_pure]
    rfl
  | jeq | jne =>
    simp only [effect, branchEffect, map_bind, map_pure, apply_ite (State.retrace · en records)]
    rfl

theorem State.onReject_retrace (r : Reject) :
    (s.retrace en records).onReject r = (s.onReject r).retrace en records := by
  cases r with
  | unassigned op =>
    cases hpol : s.cfg.policy with
    | lenient =>
      simp only [State.onReject, State.unassigned_of_lenient hpol,
        State.unassigned_of_lenient (s := s.retrace en records) hpol]
      rfl
    | strict =>
      simp only [State.onReject, State.unassigned_of_strict hpol,
        State.unassigned_of_strict (s := s.retrace en records) hpol]
      rfl
  | noOpcode | noOperandA | noOperandB => rfl

/-- The trace record of the step is among what tracing differs in. -/
theorem traced_retrace : ∃ records', traced (s.retrace en records) = (traced s).retrace en records' :=
  ⟨_, rfl⟩

end

section
variable {s t : State} {en : Bool} {records : List Trace}

theorem exec_retrace {i : Instr} (h : exec i s = .next t) :
    exec i (s.retrace en records) = .next (t.retrace en records) := by
  rcases exec_cases h with hok | ⟨e, herr, rfl⟩
  · exact exec_of_effect (by rw [effect_retrace, hok]; rfl)
  · exact exec_of_raise (by rw [effect_retrace, herr]; rfl)

theorem step_retrace (h : step s = .next t) :
    ∃ records', step (s.retrace en records) = .next (t.retrace en records') := by
  obtain ⟨records', htraced⟩ := traced_retrace s en records
  refine ⟨records', ?_⟩
  obtain ⟨hrun, ⟨i, rest, hdec, hexec⟩ | ⟨r, hdec, rfl⟩⟩ := step_cases h
  · have hbytes : HoldsAt s s.pc (encode i) := State.bytesFrom_prefix (eq_encode_of_decode hdec)
    rw [State.emitTrace_eq] at hexec
    rw [step_of_holdsAt (s := s.retrace en records) hrun hbytes, htraced, exec_retrace hexec]
  · rw [step_of_reject (s := s.retrace en records) hrun hdec, htraced, State.onReject_retrace, State.emitTrace_eq]

end

/-- A run of an engine with other tracing is the same run with other tracing. -/
theorem hostRun_retrace (limit : Nat) (s : State) (en : Bool) (records : List Trace) :
    ∃ records', hostRun limit (s.retrace en records) =
      ((hostRun limit s).1, (hostRun limit s).2.retrace en records') := by
  induction limit, s using hostRun_induction generalizing records with
  | halted limit s hhalted =>
    rw [hostRun_of_halted limit hhalted, hostRun_of_halted (s := s.retrace en records) limit hhalted]
    exact ⟨records, rfl⟩
  | faulted limit s hhalted hfaulted =>
    rw [hostRun_of_faulted limit hhalted hfaulted,
      hostRun_of_faulted (s := s.retrace en records) limit hhalted hfaulted]
    exact ⟨records, rfl⟩
  | stopped s hrun =>
    rw [hostRun_zero hrun, hostRun_zero (s := s.retrace en records) hrun]
    exact ⟨records, rfl⟩
  | steps k s t hstep ih =>
    obtain ⟨records', hstep'⟩ := step_retrace (en := en) (records := records) hstep
    rw [hostRun_succ k hstep, hostRun_succ k hstep']
    exact ih records'

/-- Settles O9: related states differ by a `retrace`, which every run carries to its end. -/
theorem traceChangesNoRun : Obligations.TraceChangesNoRun := by
  intro limit s t h
  obtain ⟨en, records, rfl⟩ := sameButTrace_iff.1 h
  obtain ⟨records', hrun⟩ := hostRun_retrace limit s en records
  rw [hrun]
  exact ⟨rfl, sameButTrace_iff.2 ⟨en, records', rfl⟩⟩

/-! ## The trace record of a step (60_exceptions.md R255) -/

theorem step_traces {s t : State} (h : step s = .next t) : t.traces = (traced s).traces := by
  obtain ⟨-, hout⟩ := step_outcome h
  cases hout with
  | completes _ run => exact run.sameRest.traces
  | faults _ => rfl
  | skips _ _ _ => rfl

/-- Settles O8: after the trace record nothing in a step writes to the trace port. -/
theorem everyStepEmitsItsTraceRecord : Obligations.EveryStepEmitsItsTraceRecord := by
  intro s t _ h
  rw [step_traces h]
  exact ⟨fun hon => if_pos hon, fun hoff => if_neg (by simp [hoff])⟩

end Sys2Proof.Machine

namespace Sys2Proof

/-! ## The opcode of a rejection (60_exceptions.md R244) -/

/-- The opcode byte that a rejection was given, if there was one (`head?_of_decode_eq_reject`). -/
def Reject.opcode? : Reject → Option Byte
  | .noOpcode => none
  | .unassigned op => some op
  | .noOperandA op => some op
  | .noOperandB op => some op

/-- A rejection for a missing operand byte keeps the opcode, whichever byte is missing. -/
theorem takeOperands_reject_opcode? {op : Byte} {f : Format} {bytes : List Byte} {r : Reject}
    (h : takeOperands op f bytes = .reject r) : r.opcode? = some op :=
  match f, bytes, h with
  | .f1r _, [], rfl | .f2ri _, [], rfl | .f2rr _, [], rfl | .f2ri _, [_], rfl | .f2rr _, [_], rfl => rfl

theorem head?_of_decode_eq_reject {bytes : List Byte} {r : Reject} (h : decode bytes = .reject r) :
    bytes.head? = r.opcode? := by
  cases bytes with
  | nil =>
    obtain rfl : .noOpcode = r := by simpa [decode] using h
    rfl
  | cons op bytes =>
    cases hrow : lookupOpcode op with
    | none =>
      obtain rfl : .unassigned op = r := by simpa [decode, hrow] using h
      rfl
    | some row =>
      have htake : takeOperands op row.format bytes = .reject r := by simpa [decode, hrow] using h
      exact (takeOperands_reject_opcode? htake).symm

end Sys2Proof

namespace Sys2Proof.Machine

/-- The first byte fetched is the one at pc, if pc is in memory. -/
theorem State.fetched_head? (s : State) : s.fetched.head? = s.peek s.pc := by
  rw [State.fetched, State.bytesFrom]
  cases s.peek s.pc <;> rfl

/-! ## Inversion of the operations that raise: when one raises, and what -/

theorem bind_eq_error {α β : Type} {x : Except Raise α} {f : α → Except Raise β} {e : Raise} :
    (x >>= f) = .error e ↔ x = .error e ∨ ∃ a, x = .ok a ∧ f a = .error e := by
  cases x <;> simp

theorem regIndex_eq_error {b : Byte} {e : Raise} :
    regIndex b = .error e ↔ 8 ≤ b.toNat ∧ e = .invalidRegister b := by
  rcases regIndex_cases b with ⟨r, rfl, hok⟩ | ⟨hb, herr⟩
  · have hr : ¬ 8 ≤ (regByte r).toNat := by simp [regByte_toNat]
    simp [hok, hr]
  · simp [herr, hb, eq_comm (a := e)]

theorem State.checkAddr_eq_error {s : State} {a : Nat} {e : Raise} :
    s.checkAddr a = .error e ↔ s.cfg.memSize ≤ a ∧ e = .memoryFault a := by
  rcases Nat.lt_or_ge a s.cfg.memSize with hlt | hle
  · simp [State.checkAddr_ok hlt, Nat.not_le.2 hlt]
  · simp [State.checkAddr_error hle, hle, eq_comm (a := e)]

theorem State.memRead_eq_error {s : State} {a : Nat} {e : Raise} :
    s.memRead a = .error e ↔ s.cfg.memSize ≤ a ∧ e = .memoryFault a := by
  simp [State.memRead, bind_eq_error, State.checkAddr_eq_error]

theorem State.decSp_eq_error {s : State} {e : Raise} :
    s.decSp = .error e ↔ s.cfg.memSize ≤ (s.sp - 1).toNat ∧ e = .memoryFault (s.sp - 1).toNat := by
  simp [State.decSp, bind_eq_error, State.checkAddr_eq_error]

/-- What instruction `i` can raise in `s`, with the rule's reason (`Raises.of_effect`). -/
inductive Raises (s : State) (i : Instr) : Raise → Prop
  | registerA {b : Byte} (byte : (encode i)[1]? = some b) (bad : 8 ≤ b.toNat) : Raises s i (.invalidRegister b)
  | registerB {b : Byte} (op : i.opcode ∈ [opMUL, opCMP]) (byte : (encode i)[2]? = some b) (bad : 8 ≤ b.toNat) :
      Raises s i (.invalidRegister b)
  | returnAddress (beyond : s.cfg.memSize ≤ s.pc + 2) : Raises s i (.memoryFault (s.pc + 2))
  | stackStore (op : i.opcode ∈ [opPUSH, opCALL]) (beyond : s.cfg.memSize ≤ (s.sp - 1).toNat) :
      Raises s i (.memoryFault (s.sp - 1).toNat)
  | stackLoad (op : i.opcode ∈ [opPOP, opRET]) (beyond : s.cfg.memSize ≤ s.sp.toNat) :
      Raises s i (.memoryFault s.sp.toNat)

section
variable {s : State} {i : Instr} {e : Raise}

/-- The check of `ra` raises, or what follows it does. -/
theorem Raises.of_registerA {ra : Byte} {f : Fin 8 → Except Raise State} (h : regIndex ra >>= f = .error e)
    (hra : (encode i)[1]? = some ra) (hf : ∀ r, f r = .error e → Raises s i e) : Raises s i e := by
  rcases bind_eq_error.1 h with herr | ⟨r, -, herr⟩
  · obtain ⟨hbad, rfl⟩ := regIndex_eq_error.1 herr
    exact .registerA hra hbad
  · exact hf r herr

/-- The check of `rb`, the last thing that raises in MUL and CMP. -/
theorem Raises.of_registerB {rb : Byte} {k : Fin 8 → State} (h : (regIndex rb >>= fun b => pure (k b)) = .error e)
    (hop : i.opcode ∈ [opMUL, opCMP]) (hrb : (encode i)[2]? = some rb) : Raises s i e := by
  obtain ⟨hbad, rfl⟩ : 8 ≤ rb.toNat ∧ e = .invalidRegister rb := by
    simpa [bind_eq_error, regIndex_eq_error] using h
  exact .registerB hop hrb hbad

/-- The load through SP, the last thing that raises in POP and RET. -/
theorem Raises.of_stackLoad {k : Byte → State} (h : (s.memRead s.sp.toNat >>= fun v => pure (k v)) = .error e)
    (hop : i.opcode ∈ [opPOP, opRET]) : Raises s i e := by
  obtain ⟨hsp, rfl⟩ : s.cfg.memSize ≤ s.sp.toNat ∧ e = .memoryFault s.sp.toNat := by
    simpa [bind_eq_error, State.memRead_eq_error] using h
  exact .stackLoad hop hsp

/-- The end that PUSH and CALL share: the new SP is checked before it is written, so the store through it does not
raise. -/
theorem Raises.of_stackStore {v : State → Byte} {k : State → State}
    (h : (s.decSp >>= fun s₁ => s₁.memWrite s₁.sp.toNat (v s₁) >>= fun s₂ => pure (k s₂)) = .error e)
    (hop : i.opcode ∈ [opPUSH, opCALL]) : Raises s i e := by
  rcases bind_eq_error.1 h with herr | ⟨s₁, hok, herr⟩
  · obtain ⟨hsp, rfl⟩ := State.decSp_eq_error.1 herr
    exact .stackStore hop hsp
  · obtain ⟨hsp, rfl⟩ := State.decSp_eq_ok.1 hok
    have hsp' : (s.setReg spReg (s.sp - 1)).sp = s.sp - 1 := by simp
    rw [hsp', State.memWrite_ok (s := s.setReg spReg (s.sp - 1)) _ hsp] at herr
    exact nomatch herr

theorem Raises.of_effect (h : effect i s = .error e) : Raises s i e := by
  cases i with
  | hlt => nomatch h
  | ret => exact .of_stackLoad h (by simp [Instr.opcode])
  | push ra =>
    exact .of_registerA h rfl fun r h => .of_stackStore (v := (·.reg r)) h (by simp [Instr.opcode])
  | pop ra => exact .of_registerA h rfl fun _ h => .of_stackLoad h (by simp [Instr.opcode])
  | call ra =>
    refine .of_registerA h rfl fun r h => ?_
    rcases bind_eq_error.1 h with herr | ⟨_, -, h⟩
    · obtain ⟨hret, rfl⟩ := State.checkAddr_eq_error.1 herr
      exact .returnAddress hret
    · exact .of_stackStore (k := fun s₂ => s₂.jumpTo (s₂.reg r)) h (by simp [Instr.opcode])
  | mul | cmp => exact .of_registerA h rfl fun _ h => .of_registerB h (by simp [Instr.opcode]) rfl
  | prn | jmp | jeq | jne | ldi => exact .of_registerA h rfl nofun

end

/-! ## What a step that faults raised (60_exceptions.md R241, R245) -/

/-- What a step from `s` can raise, with the rule's reason (`step_fault`). -/
inductive StepRaises (s : State) : Raise → Prop
  | opcodeFetch (beyond : s.cfg.memSize ≤ s.pc) : StepRaises s (.memoryFault s.pc)
  | operandA (beyond : s.cfg.memSize ≤ s.pc + 1) : StepRaises s (.memoryFault (s.pc + 1))
  | operandB (beyond : s.cfg.memSize ≤ s.pc + 2) : StepRaises s (.memoryFault (s.pc + 2))
  | unknown (policy : s.cfg.policy = .strict) (unassigned : s.mem.read s.pc ∉ assignedOpcodes) :
      StepRaises s (.unknownInstruction (s.mem.read s.pc))
  | execute {i : Instr} {e : Raise} (bytes : HoldsAt s s.pc (encode i)) (raise : Raises (traced s) i e) :
      StepRaises s e

/-- A rejection that faults raises for its own reason, with the opcode it was given. -/
theorem onReject_fault {s : State} {r : Reject} (hrun : Running s) (hdec : decode s.fetched = .reject r)
    (hf : ((traced s).onReject r).faultRec.faulted = true) :
    ∃ e, StepRaises s e ∧ (traced s).onReject r = (traced s).takeFault r.opcode? e := by
  have hr : r.Explains s.fetched := decode_eq_reject hdec
  cases r with
  | noOpcode =>
    have hlen : s.fetched.length = 0 := List.length_eq_zero_iff.2 hr
    exact ⟨_, .opcodeFetch (by simpa [hlen] using s.memSize_le_of_fetched_length (by omega)), rfl⟩
  | unassigned op =>
    obtain ⟨hhead, hop⟩ := hr
    obtain ⟨-, rfl⟩ := State.read_pc_of_fetched_head? hhead
    cases hpol : s.cfg.policy with
    | lenient =>
      rw [State.onReject, State.unassigned_of_lenient (s := traced s) hpol] at hf
      exact nomatch hrun.2.symm.trans hf
    | strict => exact ⟨_, .unknown hpol hop, State.unassigned_of_strict (s := traced s) hpol _⟩
  | noOperandA op =>
    have hlen : s.fetched.length = 1 := hr
    exact ⟨_, .operandA (hlen ▸ s.memSize_le_of_fetched_length (by omega)), rfl⟩
  | noOperandB op =>
    have hlen : s.fetched.length = 2 := hr
    exact ⟨_, .operandB (hlen ▸ s.memSize_le_of_fetched_length (by omega)), rfl⟩

/-- The inversion of a step that faults: fault entry, after the trace record, with the byte at pc as the opcode. -/
theorem step_fault {s t : State} (h : step s = .next t) (hf : t.faultRec.faulted = true) :
    ∃ e, StepRaises s e ∧ t = (traced s).takeFault (s.peek s.pc) e := by
  obtain ⟨hrun, ⟨i, rest, hdec, hexec⟩ | ⟨r, hdec, rfl⟩⟩ := step_cases h
  · rw [State.emitTrace_eq] at hexec
    have hbytes : HoldsAt s s.pc (encode i) := State.bytesFrom_prefix (eq_encode_of_decode hdec)
    obtain ⟨hlt, hop⟩ := hbytes.opcode
    rcases exec_cases hexec with hok | ⟨e, herr, rfl⟩
    · have hkeep : t.faultRec = s.faultRec := (Completes.of_effect hok).faultRec
      rw [hkeep, hrun.2] at hf
      exact nomatch hf
    · exact ⟨e, .execute hbytes (.of_effect herr), by rw [State.peek_of_lt hlt, hop]⟩
  · rw [State.emitTrace_eq] at hf ⊢
    rw [← State.fetched_head?, head?_of_decode_eq_reject hdec]
    exact onReject_fault hrun hdec hf

/-- Settles O15: a step that faults is fault entry from the traced state, and the opcode of the record is what a fetch
at pc finds. -/
theorem faultsArePrecise : Obligations.FaultsArePrecise := by
  intro s t hrun h hf
  obtain ⟨e, -, rfl⟩ := step_fault h hf
  refine ⟨rfl, hrun.1, rfl, fun hlt => ?_, fun hle => ?_⟩
  · rw [State.peek_of_lt hlt]
    exact ⟨rfl, rfl⟩
  · rw [State.peek_of_le hle]
    exact ⟨rfl, rfl⟩

/-- Settles O16: each raise of a step writes its own cause and info into the record. -/
theorem faultsOnlyForTheListedCauses : Obligations.FaultsOnlyForTheListedCauses := by
  intro s t _ h hf
  obtain ⟨e, he, rfl⟩ := step_fault h hf
  cases he with
  | opcodeFetch beyond => exact .inl ⟨rfl, beyond, .inl rfl⟩
  | operandA beyond => exact .inl ⟨rfl, beyond, .inr (.inl rfl)⟩
  | operandB beyond => exact .inl ⟨rfl, beyond, .inr (.inr (.inl rfl))⟩
  | unknown policy unassigned => exact .inr (.inr ⟨rfl, policy, unassigned, rfl⟩)
  | execute bytes raise =>
    rw [bytes.opcode.2]
    cases raise with
    | registerA byte bad =>
      exact .inr (.inl ⟨rfl, bad, .inl (congrArg BitVec.toNat (bytes.read_of_getElem? byte).2.symm)⟩)
    | registerB op byte bad =>
      exact .inr (.inl ⟨rfl, bad, .inr ⟨op, congrArg BitVec.toNat (bytes.read_of_getElem? byte).2.symm⟩⟩)
    | returnAddress beyond => exact .inl ⟨rfl, beyond, .inr (.inr (.inl rfl))⟩
    | stackStore op beyond => exact .inl ⟨rfl, beyond, .inr (.inr (.inr (.inl ⟨op, rfl⟩)))⟩
    | stackLoad op beyond => exact .inl ⟨rfl, beyond, .inr (.inr (.inr (.inr ⟨op, rfl⟩)))⟩

end Sys2Proof.Machine

/-! # Reset and hazards: the invariant of a construction, and the run through a memory that holds only 0x00 -/

namespace Sys2Proof.Machine

/-! ## Construction and reset (70_reset_and_hazards.md R290) -/

theorem Inv.construct {c : Config} (h : c.Legal) : Inv (State.construct c) where
  params := h
  memCanonical := rfl
  memInside := nofun
  pcRange := Nat.zero_le _
  flags := .inl rfl
  record := .inl rfl
  oneEnd := nofun
  quietDiag _ := rfl
  quietTrace _ := rfl

theorem hostConstruct_eq_none_iff {c : Config} : hostConstruct c = none ↔ ¬c.Legal := by
  simp [hostConstruct]

theorem hostConstruct_eq_some_iff {c : Config} {s : State} :
    hostConstruct c = some s ↔ c.Legal ∧ State.construct c = s := by
  simp [hostConstruct]

/-- Settles O39: the test that construction makes is that the parameters are legal, and those of reset are. -/
theorem constructionHasTheInvariant : Obligations.ConstructionHasTheInvariant := by
  refine ⟨fun _ => hostConstruct_eq_none_iff, fun c s h => ?_, .construct (by decide)⟩
  obtain ⟨hlegal, rfl⟩ := hostConstruct_eq_some_iff.1 h
  exact ⟨.construct hlegal, ⟨rfl, rfl⟩, rfl⟩

/-! ## Running off the end of memory (70_reset_and_hazards.md R295) -/

theorem step_of_zero_byte {s : State} (hrun : Running s) (hpolicy : s.cfg.policy = .lenient)
    (hlt : s.pc < s.cfg.memSize) (hzero : s.mem.read s.pc = 0) :
    step s = .next { traced s with pc := s.pc + 1, diags := s.diags ++ [⟨s.pc, 0x00⟩] } :=
  lenientSkipsOneByte s 0x00 hrun (.singleton hlt hzero) (by decide) hpolicy

theorem hostRun_of_step_fault {s t : State} (k : Nat) (h : step s = .next t) (hh : t.halted = false)
    (hf : t.faultRec.faulted = true) : hostRun (k + 1) s = (.fault t.faultRec, t) :=
  (hostRun_succ k h).trans (hostRun_of_faulted k hh hf)

/-- Settles O55, by induction on the number of bytes from pc to the end of memory: at the end the opcode fetch faults,
and before it one byte is skipped. -/
theorem emptyMemoryRunsOffTheEnd : Obligations.EmptyMemoryRunsOffTheEnd := by
  intro s hrun hpolicy hzero hpc
  induction hn : s.cfg.memSize - s.pc generalizing s with
  | zero =>
    have hend : s.pc = s.cfg.memSize := by omega
    have hfault := hostRun_of_step_fault 0 (opcodeFetchBeyondMemoryFaults s hrun hend.ge) hrun.1 rfl
    rw [← hend]
    exact ⟨_, hfault, rfl, (List.append_nil _).symm, fun _ => rfl, fun _ => rfl, rfl, rfl⟩
  | succ n ih =>
    have hlt : s.pc < s.cfg.memSize := by omega
    have hrest : s.cfg.memSize - (s.pc + 1) = n := by omega
    have hstep := step_of_zero_byte hrun hpolicy hlt (hzero s.pc)
    obtain ⟨t, hfault, hend, hdiags, hregs, hmem, hfl, hout⟩ :=
      ih { traced s with pc := s.pc + 1, diags := s.diags ++ [⟨s.pc, 0x00⟩] } hrun hpolicy hzero hlt hrest
    refine ⟨t, (hostRun_succ _ hstep).trans hfault, hend, ?_, hregs, hmem, hfl, hout⟩
    rw [hdiags, List.append_assoc]
    rfl

end Sys2Proof.Machine
